-- ==== Sys2Proof/Word.lean ====
section
/-! DEFINITION. The words of the CHIP-8 CORE: the bit widths the spec gives its registers and
instruction fields, and their plainest conversions. -/

namespace Sys2Proof

/-- An 8-bit value: a register, a timer, a byte of memory, an immediate kk (R102, R200, R301). -/
abbrev Byte := BitVec 8

/-- A 16-bit value: an instruction word, PC, I, a stack entry (R107, R109, R110, R300). -/
abbrev Word := BitVec 16

/-- A 4-bit field of an instruction word (R17, R301). -/
abbrev Nibble := BitVec 4

/-- The 12-bit address field nnn (R301). -/
abbrev Addr12 := BitVec 12

/-- The index of a general register, V0 to VF (R102). -/
abbrev RegIx := Fin 16

/-- One value of the caller-supplied pixel representation (R496).
DESIGN CHOICE (unsafe for a claim that names a pixel value's bits): 32 bits, notes/assumptions/6.md. -/
abbrev Pixel := BitVec 32

/-- The flag register VF is V15 (R103). -/
abbrev vf : RegIx := 15

/-- zext_16 of a byte (R13). -/
abbrev zextByte (b : Byte) : Word := b.setWidth 16

/-- zext_16 of a 12-bit address (R13). -/
abbrev zextAddr (a : Addr12) : Word := a.setWidth 16

/-- A register index as the nibble that encodes it. -/
def nibbleOf (x : Fin 16) : Nibble := BitVec.ofFin x

/-- The register index (or sprite height) that a nibble encodes. -/
def indexOf (n : Nibble) : Fin 16 := n.toFin

end Sys2Proof
end

