-- ==== Sys2Proof/Config.lean ====
section
/-! DEFINITION. What is fixed for the hardware (R10), the defaults of its parameters, and the free
values of the host's input ports. -/

namespace Sys2Proof.Config

/-- MEM_SIZE: 4096 bytes (R10, R200). -/
abbrev memSize : Nat := 4096

/-- FONT_BASE: the font starts at address 0x000 (R10, R211). -/
abbrev fontBase : Nat := 0

/-- PROG_BASE: the program image is loaded at 0x200 (R10, R701). -/
abbrev progBase : Nat := 0x200

/-- PROG_MAX: an image has at most 3584 bytes (R10, R702). -/
abbrev progMax : Nat := 3584

/-- RESET_PC: 0x200 (R10, R703, R704). -/
abbrev resetPc : Word := 0x200#16

/-- The largest PC that can be fetched from (R221). -/
abbrev lastFetch : Nat := 0xFFE

/-- DISP_W and DISP_H (R10, R115). -/
abbrev dispW : Nat := 64
abbrev dispH : Nat := 32

/-- TIMER_PERIOD = 1/60 s, in units of one third of a microsecond (R10, R642).
DESIGN CHOICE (safe): the clock unit, notes/assumptions/5.md. -/
abbrev timerPeriod : Nat := 50000

/-- Default of the parameter INSTR_PERIOD: 1/500 s, in the same unit (R10, R720, D29). -/
abbrev defaultInstrPeriod : Nat := 6000

/-- Defaults of PIXEL_ON and PIXEL_OFF: all bits one and all bits zero (R10, D19). -/
abbrev defaultPixelOn : Pixel := 0xFFFFFFFF#32
abbrev defaultPixelOff : Pixel := 0x00000000#32

/-- CONTINUE in the n-th iteration the state scripts no input for: free (R154, U14;
notes/assumptions/2.md). -/
opaque freeContinue : Nat → Bool

/-- FIRE_INSTR in the n-th iteration the state scripts no input for: free (R402, U10;
notes/assumptions/2.md). -/
opaque freeFireInstr : Nat → Bool

/-- FIRE_TIMER in the n-th iteration the state scripts no input for: free (R402, U10;
notes/assumptions/2.md). -/
opaque freeFireTimer : Nat → Bool

/-- The byte on RAND in the n-th iteration the state scripts no input for: a free draw (R152, U6;
notes/assumptions/1.md). -/
opaque freeRand : Nat → Byte

/-- The vector KEYDOWN in the n-th iteration the state scripts no input for: free (R150, U8;
notes/assumptions/1.md). -/
opaque freeKeyDown : Nat → BitVec 16

/-- KEYPRESS in the n-th iteration the state scripts no input for: none or any digit, free (R151, U7;
notes/assumptions/1.md). -/
opaque freeKeyPress : Nat → Option (Fin 16)

end Sys2Proof.Config
end

