-- ==== Sys2Proof/Syntax.lean ====
section
/-! DEFINITION. The 34 instructions of R310, one constructor per row of spec/opcode_table.json, in the
table's order. Field values are unrestricted (R312), so each operand has exactly the type of its field. -/

namespace Sys2Proof

/-- The instruction set (R2, R310). `x` and `y` name registers, `kk` is an immediate byte, `nnn` a
12-bit address, `n` a sprite height (R301, R303). -/
inductive Instr where
  /-- 00E0 CLS (R490) -/
  | cls
  /-- 00EE RET (R420) -/
  | ret
  /-- 1nnn JP nnn (R421) -/
  | jp (nnn : Addr12)
  /-- 2nnn CALL nnn (R422) -/
  | call (nnn : Addr12)
  /-- 3xkk SE Vx, kk (R423) -/
  | seImm (x : RegIx) (kk : Byte)
  /-- 4xkk SNE Vx, kk (R424) -/
  | sneImm (x : RegIx) (kk : Byte)
  /-- 5xy0 SE Vx, Vy (R425) -/
  | seReg (x y : RegIx)
  /-- 6xkk LD Vx, kk (R440) -/
  | ldImm (x : RegIx) (kk : Byte)
  /-- 7xkk ADD Vx, kk (R441) -/
  | addImm (x : RegIx) (kk : Byte)
  /-- 8xy0 LD Vx, Vy (R442) -/
  | ldReg (x y : RegIx)
  /-- 8xy1 OR Vx, Vy (R443) -/
  | orReg (x y : RegIx)
  /-- 8xy2 AND Vx, Vy (R444) -/
  | andReg (x y : RegIx)
  /-- 8xy3 XOR Vx, Vy (R445) -/
  | xorReg (x y : RegIx)
  /-- 8xy4 ADD Vx, Vy (R446) -/
  | addReg (x y : RegIx)
  /-- 8xy5 SUB Vx, Vy (R447) -/
  | subReg (x y : RegIx)
  /-- 8xy6 SHR Vx, Vy; y is decoded and ignored (R448, R312) -/
  | shr (x y : RegIx)
  /-- 8xy7 SUBN Vx, Vy (R449) -/
  | subnReg (x y : RegIx)
  /-- 8xyE SHL Vx, Vy; y is decoded and ignored (R450, R312) -/
  | shl (x y : RegIx)
  /-- 9xy0 SNE Vx, Vy (R426) -/
  | sneReg (x y : RegIx)
  /-- Annn LD I, nnn (R470) -/
  | ldI (nnn : Addr12)
  /-- Bnnn JP V0, nnn (R427) -/
  | jpV0 (nnn : Addr12)
  /-- Cxkk RND Vx, kk (R451) -/
  | rnd (x : RegIx) (kk : Byte)
  /-- Dxyn DRW Vx, Vy, n (R491) -/
  | drw (x y : RegIx) (n : Fin 16)
  /-- Ex9E SKP Vx (R510) -/
  | skp (x : RegIx)
  /-- ExA1 SKNP Vx (R511) -/
  | sknp (x : RegIx)
  /-- Fx07 LD Vx, DT (R512) -/
  | ldVxDt (x : RegIx)
  /-- Fx0A LD Vx, K (R513) -/
  | ldVxK (x : RegIx)
  /-- Fx15 LD DT, Vx (R514) -/
  | ldDtVx (x : RegIx)
  /-- Fx18 LD ST, Vx (R515) -/
  | ldStVx (x : RegIx)
  /-- Fx1E ADD I, Vx (R471) -/
  | addI (x : RegIx)
  /-- Fx29 LD F, Vx (R472) -/
  | ldF (x : RegIx)
  /-- Fx33 LD B, Vx (R473) -/
  | ldB (x : RegIx)
  /-- Fx55 LD [I], Vx (R474) -/
  | storeRegs (x : RegIx)
  /-- Fx65 LD Vx, [I] (R475) -/
  | loadRegs (x : RegIx)
  deriving DecidableEq, Repr

end Sys2Proof
end

