-- ==== Sys2Proof/WellFormed.lean ====
section
/-! DEFINITION. Well-formedness: of an instruction (its operands lie in their fields, R301 and R312) and
of what the host supplies at reset (the program image, R702). -/

namespace Sys2Proof

/-- A register index or a sprite height fits its 4-bit field. -/
abbrev fitsNibble (n : Nat) : Bool := decide (n < 16)

/-- An immediate fits its 8-bit field. -/
abbrev fitsByte (n : Nat) : Bool := decide (n < 256)

/-- An address fits its 12-bit field. -/
abbrev fitsAddr12 (n : Nat) : Bool := decide (n < 4096)

/-- Every operand lies in the field that encodes it (R301); any value of a field is legal (R312).
The operand types of `Instr` enforce the ranges, so no ill-formed instruction can be written: this
holds of every one (`Laws.wellFormed_all`), and no statement needs it as a premise.
DESIGN CHOICE (safe): notes/assumptions/21.md. -/
def Instr.wellFormed : Instr → Bool
  | .cls | .ret => true
  | .jp a | .call a | .ldI a | .jpV0 a => fitsAddr12 a.toNat
  | .seImm x k | .sneImm x k | .ldImm x k | .addImm x k | .rnd x k => fitsNibble x && fitsByte k.toNat
  | .seReg x y | .sneReg x y | .ldReg x y | .orReg x y | .andReg x y | .xorReg x y | .addReg x y
  | .subReg x y | .shr x y | .subnReg x y | .shl x y => fitsNibble x && fitsNibble y
  | .drw x y n => fitsNibble x && fitsNibble y && fitsNibble n
  | .skp x | .sknp x | .ldVxDt x | .ldVxK x | .ldDtVx x | .ldStVx x | .addI x | .ldF x | .ldB x
  | .storeRegs x | .loadRegs x => fitsNibble x

/-- An image is at most PROG_MAX bytes; a longer one is refused before execution (R702). -/
def imageWellFormed (image : List Byte) : Bool := decide (image.length ≤ Config.progMax)

end Sys2Proof
end

