-- ==== Sys2Proof/Machine/State.lean ====
section
/-! DEFINITION. The state of the CORE (R100 to R119) as plain data, the reasons a step can stop, and the
state right after reset (R703). -/

namespace Sys2Proof.Machine

/-- Memory: the bytes that differ from the reset contents of R703, addresses strictly rising
(`Memory.wf`). What an unlisted address reads as is `Memory.unlisted`. -/
abbrev Memory := List Host.Cell

/-- The display buffer, 2048 one-bit pixels (R100, R115): bit `y * 64 + x` is DISP[x][y], true is on.
The order of the bits is the order of FRAME (R496).
DESIGN CHOICE (safe): the layout, notes/assumptions/7.md. -/
abbrev Display := BitVec 2048

/-- EXEC (R116). -/
inductive ExecState where
  /-- Instruction ticks fetch and execute. -/
  | running
  /-- The instruction stream is frozen until a key press resolves the wait into V[r]. -/
  | waitingForKey (r : RegIx)
  /-- A fault has occurred; FAULT holds its record. -/
  | halted
  deriving DecidableEq, Repr

/-- The fault codes of R621. -/
inductive FaultCode where
  | fetchRange
  | memRange
  | stackOverflow
  | stackUnderflow
  deriving DecidableEq, Repr

/-- FAULT, the fault record (R117, R620). -/
structure FaultRecord where
  code : FaultCode
  /-- The address of the instruction that faulted. -/
  pc   : Word
  /-- Its instruction word, or none for a fetch fault. -/
  word : Option Word
  /-- The faulting address, or none. -/
  addr : Option Nat
  deriving DecidableEq, Repr

/-- An anomaly report with its info (R610 to R613). -/
inductive Anomaly where
  | unrecognized (pc word : Word)
  | keyUnmapped (pc : Word) (value : Byte)
  deriving DecidableEq, Repr

/-- FRAME: one value per pixel, `y * 64 + x` for column x and row y (R155, R496). -/
abbrev Frame := List Pixel

/-- What an iteration of the scheduler puts on the output ports ANOMALY and FRAME (R155, R156). These
are outputs, not state of the CORE (R119): the model holds those of the latest iteration, and no
instruction reads them. DESIGN CHOICE (safe): notes/assumptions/3.md. -/
structure Outputs where
  anomaly : Option Anomaly := none
  frame   : Option Frame := none
  deriving DecidableEq, Repr

/-- What the host's time source gives an iteration (R153). -/
inductive ClockInput where
  /-- NOW, the host clock's reading; the cadences fire by R401. -/
  | now (t : Nat)
  /-- The flags FIRE_INSTR and FIRE_TIMER of the abstract iteration (R402). -/
  | fire (instr timer : Bool)
  deriving DecidableEq, Repr

/-- The values on the CORE's input ports during one iteration (R150 to R154).
DEDUCED (safe): one record an iteration, notes/assumptions/20.md. -/
structure HostInput where
  /-- CONTINUE (R154) -/
  cont     : Bool
  /-- NOW, or FIRE_INSTR and FIRE_TIMER (R153) -/
  clock    : ClockInput
  /-- KEYDOWN: bit k is true when the key of hex value k is held (R150) -/
  keyDown  : BitVec 16
  /-- KEYPRESS: none or one hex digit (R151) -/
  keyPress : Option (Fin 16)
  /-- RAND (R152) -/
  rand     : Byte
  deriving DecidableEq, Repr

/-- The parameters of R10 that a running machine reads. No step changes them.
DESIGN CHOICE (safe): notes/assumptions/8.md.
(FONT is read at reset only and is an argument of `boot`.) -/
structure Params where
  /-- INSTR_PERIOD, in clock units -/
  instrPeriod : Nat := Config.defaultInstrPeriod
  pixelOn     : Pixel := Config.defaultPixelOn
  pixelOff    : Pixel := Config.defaultPixelOff
  deriving DecidableEq, Repr

/-- Whether the scheduler still iterates (R400). -/
inductive SchedulerState where
  | iterating
  /-- CONTINUE was false at the start of an iteration (notes/assumptions/11.md). -/
  | stopped
  deriving DecidableEq, Repr

/-- The state of the machine. The fields down to `tTimer` are the spec's (R100); those after it are
the model's own: the parameters, the scheduler's loop, and the host's ports. -/
structure State where
  /-- MEM[0..4095] (R200) -/
  mem       : Memory
  /-- V[0..15] (R102) -/
  v         : Vector Byte 16
  /-- I (R109) -/
  i         : Word
  /-- PC (R106, R107) -/
  pc        : Word
  /-- STACK[0..15] (R110) -/
  stack     : Vector Word 16
  /-- SP, 0..16 (R111) -/
  sp        : Fin 17
  /-- DT (R113) -/
  dt        : Byte
  /-- ST (R113, R114) -/
  st        : Byte
  /-- DISP (R115) -/
  disp      : Display
  /-- EXEC (R116) -/
  execState : ExecState
  /-- FAULT, meaningful only in Halted (R117) -/
  fault     : Option FaultRecord
  /-- T_INSTR (R118) -/
  tInstr    : Nat
  /-- T_TIMER (R118) -/
  tTimer    : Nat
  /-- The parameters (R10). -/
  params    : Params
  /-- Whether the scheduler's loop has been left (R400). -/
  scheduler : SchedulerState
  /-- The host's inputs for the iterations to come, the next one first; `inputNow` says what follows
  the end of the list (free values, notes/assumptions/1.md and 2.md). -/
  inputs    : List HostInput
  /-- The number of iterations so far, the argument of the free values (notes/assumptions/1.md and 2.md). -/
  tick      : Nat
  /-- The outputs of the latest iteration. -/
  out       : Outputs
  deriving DecidableEq, Repr

/-- Reasons to stop with a fault: there are none, so no step answers `fault`. Every fault of the spec
(R620 to R625) is an entry into the Halted state, which `raiseFault` makes as a next state. Safe and
faithful: the CORE has no other stop (R600). DESIGN CHOICE: notes/assumptions/9.md. -/
inductive Fault where
  deriving DecidableEq, Repr

/-- Reasons to refuse. -/
inductive Refusal where
  /-- An instruction that has no meaning yet: no arm of `exec` raises it. Safe. -/
  | notModelled (mnemonic : String)
  /-- `boot` raises it for an image of more than 3584 bytes: the refused reset produces no machine state
  (R702). No step raises it. Safe and faithful (notes/assumptions/22.md). -/
  | imageTooLong (bytes : Nat)
  deriving DecidableEq, Repr

/-- The answer of a step or of a meaning. -/
abbrev Result := Host.Outcome State Fault Refusal

/-- The machine right after reset with the default parameters and an empty image, at host clock 0
(R703; for other images, fonts and clocks see `boot`).
DESIGN CHOICE: the empty image and the clock at 0, notes/assumptions/5.md and 15.md. -/
def State.reset : State where
  mem := []
  v := Vector.replicate 16 0#8
  i := 0#16
  pc := Config.resetPc
  stack := Vector.replicate 16 0#16
  sp := 0
  dt := 0#8
  st := 0#8
  disp := 0#2048
  execState := .running
  fault := none
  tInstr := 0
  tTimer := 0
  params := {}
  scheduler := .iterating
  inputs := []
  tick := 0
  out := {}

end Sys2Proof.Machine
end

