-- ==== Sys2Proof/Machine/Memory.lean ====
section
/-! DEFINITION. The byte array of 4096 addresses (R200 to R243): its reset contents, reads, writes, the
canonical form, and the range check. -/

namespace Sys2Proof.Machine

/-- The default of the parameter FONT: glyph of hex digit d at 5·d (R211, R212).
PRESUMED (unsafe): the glyph bytes, notes/assumptions/4.md. -/
def defaultFont : List Byte :=
  [0xF0, 0x90, 0x90, 0x90, 0xF0,  0x20, 0x60, 0x20, 0x20, 0x70,
   0xF0, 0x10, 0xF0, 0x80, 0xF0,  0xF0, 0x10, 0xF0, 0x10, 0xF0] ++
  [0x90, 0x90, 0xF0, 0x10, 0x10,  0xF0, 0x80, 0xF0, 0x10, 0xF0,
   0xF0, 0x80, 0xF0, 0x90, 0xF0,  0xF0, 0x10, 0x20, 0x40, 0x40] ++
  [0xF0, 0x90, 0xF0, 0x90, 0xF0,  0xF0, 0x90, 0xF0, 0x10, 0xF0,
   0xF0, 0x90, 0xF0, 0x90, 0x90,  0xE0, 0x90, 0xE0, 0x90, 0xE0] ++
  [0xF0, 0x80, 0x80, 0x80, 0xF0,  0xE0, 0x90, 0x90, 0x90, 0xE0,
   0xF0, 0x80, 0xF0, 0x80, 0xF0,  0xF0, 0x80, 0xF0, 0x80, 0x80]

/-- What an unlisted address reads as: the reset contents with the default font and an empty image,
that is the font at 0x000-0x04F and 0 elsewhere (R210, R703). -/
def Memory.unlisted (a : Nat) : Byte := defaultFont.getD a 0#8

/-- The canonical form: addresses strictly rising and below 4096, no entry equal to what an unlisted
address reads as. -/
abbrev Memory.wf (m : Memory) : Prop :=
  m.Pairwise (fun c d => c.1 < d.1) ∧ ∀ c ∈ m, c.1 < Config.memSize ∧ c.2 ≠ Memory.unlisted c.1

/-- MemRead(a, 1): the byte at address `a` (R14, R234). -/
def Memory.read (m : Memory) (a : Nat) : Byte :=
  match m with
  | [] => Memory.unlisted a
  | (a', b) :: rest => if a = a' then b else Memory.read rest a

/-- Put an entry into its place. -/
def Memory.insert (m : Memory) (a : Nat) (b : Byte) : Memory :=
  match m with
  | [] => [(a, b)]
  | (a', b') :: rest =>
    if a < a' then (a, b) :: (a', b') :: rest
    else if a = a' then (a, b) :: rest
    else (a', b') :: Memory.insert rest a b

/-- Take an entry out. -/
def Memory.erase (m : Memory) (a : Nat) : Memory :=
  match m with
  | [] => []
  | (a', b') :: rest => if a = a' then rest else (a', b') :: Memory.erase rest a

/-- MemWrite(a, 1, b): write byte `b` at address `a` (R14). The instructions write after `CheckRange`
only, so the guard is never false for them; it keeps addresses that do not exist out of the list.
DEDUCED (safe): notes/assumptions/17.md. -/
def Memory.write (m : Memory) (a : Nat) (b : Byte) : Memory :=
  if a < Config.memSize then
    if b = Memory.unlisted a then Memory.erase m a else Memory.insert m a b
  else m

/-- The bytes of a list written in increasing address order (R233). -/
def Memory.writeBytes (m : Memory) (a : Nat) (bs : List Byte) : Memory :=
  match bs with
  | [] => m
  | b :: rest => Memory.writeBytes (Memory.write m a b) (a + 1) rest

/-- MemRead(a, 2): the big-endian read of fetch (R220). -/
def Memory.readWord (m : Memory) (a : Nat) : Word :=
  wordOfBytes (Memory.read m a) (Memory.read m (a + 1))

/-- CheckRange(a, k) of R14 and R230: none, or the first of the exact addresses a, …, a+k−1 that is
4096 or above. -/
def checkRange (a k : Nat) : Option Nat :=
  (List.range' a k).find? (fun b => decide (Config.memSize ≤ b))

end Sys2Proof.Machine
end

