-- ==== Sys2Proof/Machine/Ops.lean ====
section
/-! DEFINITION. The named operations over the state that the meanings share: registers, the stack, the
host's ports, faults and anomalies (R600 to R627), the key wait and the timers. -/

namespace Sys2Proof.Machine

/-! ## Registers (R14, R102) -/

/-- V[x]. -/
def getV (s : State) (x : RegIx) : Byte := s.v[x]

/-- V[x] <- b. -/
def setV (s : State) (x : RegIx) (b : Byte) : State := { s with v := s.v.set x b }

/-- I <- a. -/
def setI (s : State) (a : Word) : State := { s with i := a }

/-- PC <- a. -/
def setPc (s : State) (a : Word) : State := { s with pc := a }

/-- DT <- b. -/
def setDt (s : State) (b : Byte) : State := { s with dt := b }

/-- ST <- b. -/
def setSt (s : State) (b : Byte) : State := { s with st := b }

/-- DISP <- d. -/
def setDisp (s : State) (d : Display) : State := { s with disp := d }

/-- MEM <- m. -/
def setMem (s : State) (m : Memory) : State := { s with mem := m }

/-- EXEC <- e. -/
def setExec (s : State) (e : ExecState) : State := { s with execState := e }

/-- PC <- PC + 2: the advance of fetch (R405) and the "skip" of R408.
DEDUCED (safe): modulo 2^16, notes/assumptions/16.md. -/
def advance (s : State) : State := setPc s (s.pc + 2#16)

/-- Skip the next word when the condition holds (R408). -/
def skipIf (c : Bool) (s : State) : State := setPc s (if c then s.pc + 2#16 else s.pc)

/-- The address of the instruction in execution: PC has been advanced past it by the fetch (R106, R405).
DEDUCED (safe): notes/assumptions/10.md. -/
def instrPc (s : State) : Word := s.pc - 2#16

/-! ## The call stack (R110 to R112) -/

/-- STACK[SP] <- a; SP <- SP + 1. Asked for with SP < 16 only. -/
def push (s : State) (a : Word) (h : s.sp.val < 16) : State :=
  { s with stack := s.stack.set s.sp.val a, sp := ⟨s.sp.val + 1, by omega⟩ }

/-- SP <- SP − 1; the entry keeps its value (R112). Asked for with SP > 0 only. -/
def pop (s : State) : State := { s with sp := ⟨s.sp.val - 1, by omega⟩ }

/-- The most recent live entry, STACK[SP−1]. -/
def topOfStack (s : State) : Word := s.stack[s.sp.val - 1]'(by omega)

/-! ## The host's ports (R150 to R159) -/

/-- The values on the input ports in the coming iteration: the script's head, and after its end the abstract
iteration of R402 with every input free, the fire flags and CONTINUE among them.
DESIGN CHOICE (safe): notes/assumptions/1.md and 2.md. -/
def inputNow (s : State) : HostInput :=
  match s.inputs with
  | h :: _ => h
  | [] =>
    { cont := Config.freeContinue s.tick
      clock := .fire (Config.freeFireInstr s.tick) (Config.freeFireTimer s.tick)
      keyDown := Config.freeKeyDown s.tick
      keyPress := Config.freeKeyPress s.tick
      rand := Config.freeRand s.tick }

/-- KEYDOWN[k] (R150). -/
def keyDown (s : State) (k : Nat) : Bool := (inputNow s).keyDown.getLsbD k

/-- RAND() (R152): the draw of this iteration. -/
def randByte (s : State) : Byte := (inputNow s).rand

/-- FIRE_INSTR of the coming iteration: the flag, or strictly more than INSTR_PERIOD since T_INSTR
(R401, R402). DEDUCED (safe): the natural subtraction, notes/assumptions/13.md. -/
def fireInstr (s : State) : Bool :=
  match (inputNow s).clock with
  | .now t => decide (s.params.instrPeriod < t - s.tInstr)
  | .fire i _ => i

/-- FIRE_TIMER of the coming iteration: the flag, or strictly more than TIMER_PERIOD since T_TIMER
(R401, R402). -/
def fireTimer (s : State) : Bool :=
  match (inputNow s).clock with
  | .now t => decide (Config.timerPeriod < t - s.tTimer)
  | .fire _ t => t

/-- T_INSTR <- now, when the clock was read (R401), in Halted too.
DEDUCED (safe): notes/assumptions/12.md and 14.md. -/
def stampInstr (c : ClockInput) (s : State) : State :=
  match c with
  | .now t => { s with tInstr := t }
  | .fire _ _ => s

/-- T_TIMER <- now, when the clock was read (R401). -/
def stampTimer (c : ClockInput) (s : State) : State :=
  match c with
  | .now t => { s with tTimer := t }
  | .fire _ _ => s

/-- An iteration begins with nothing on the output ports. -/
def clearOutputs (s : State) : State := { s with out := {} }

/-- An iteration ends: its inputs are used up. -/
def consumeInput (s : State) : State := { s with inputs := s.inputs.tail, tick := s.tick + 1 }

/-- The scheduler's loop is left (R400). -/
def stopScheduler (s : State) : State := { s with scheduler := .stopped }

/-! ## Anomalies and faults (R600 to R627) -/

/-- raise Anomaly: one event on the port ANOMALY, no state written (R610). -/
def raiseAnomaly (a : Anomaly) (s : State) : State := { s with out := { s.out with anomaly := some a } }

/-- The numeric anomaly codes of R613. -/
def Anomaly.code : Anomaly → Nat
  | .unrecognized _ _ => 1
  | .keyUnmapped _ _ => 2

/-- The numeric fault codes of R621. -/
def FaultCode.number : FaultCode → Nat
  | .fetchRange => 1
  | .memRange => 2
  | .stackOverflow => 3
  | .stackUnderflow => 4

/-- raise Fault, the one way into Halted: FAULT is set and EXEC becomes Halted, nothing else changes;
there is no handler, and nothing returns from it but reset (R620, R626). -/
def raiseFault (code : FaultCode) (pc : Word) (word : Option Word) (addr : Option Nat) (s : State) : State :=
  { s with execState := .halted, fault := some ⟨code, pc, word, addr⟩ }

/-- A fault raised while instruction `i` executes: FAULT.pc is its address and FAULT.word its word
(R620). DEDUCED (safe): notes/assumptions/10.md. -/
def instrFault (code : FaultCode) (i : Instr) (addr : Option Nat) (s : State) : State :=
  raiseFault code (instrPc s) (some (encode i)) addr s

/-- An instruction that accesses the `k` bytes from I on: the whole range is checked before any access
or write (R230, R623). -/
def withRange (i : Instr) (k : Nat) (s : State) (effect : State → State) : Result :=
  match checkRange s.i.toNat k with
  | some a => .next (instrFault .memRange i (some a) s)
  | none => .next (effect s)

/-! ## The key wait and the timers -/

/-- ResolveWait(r), the instruction step in WaitingForKey(r) (R520). -/
def resolveWait (r : RegIx) (s : State) : State :=
  match (inputNow s).keyPress with
  | none => s
  | some d => setExec (setV s r (BitVec.ofNat 8 d.val)) .running

/-- A timer's countdown by one, stopping at 0 (R640, R641). -/
def countDown (t : Byte) : Byte := if t = 0#8 then 0#8 else t - 1#8

/-- Render(DISP): row-major, top row first (R496). -/
def render (p : Params) (d : Display) : Frame :=
  (List.range 2048).map (fun k => if d.getLsbD k then p.pixelOn else p.pixelOff)

/-- TimerStep (R640, R497); nothing in Halted (R407). -/
def timerStep (s : State) : State :=
  match s.execState with
  | .halted => s
  | _ =>
    { s with
      dt := countDown s.dt
      st := countDown s.st
      out := { s.out with frame := some (render s.params s.disp) } }

/-! ## Debug and status outputs -/

/-- SNAPSHOT, the read-only debug accessor (R158, R660). -/
structure Snapshot where
  v         : Vector Byte 16
  pc        : Word
  sp        : Fin 17
  stack     : Vector Word 16
  i         : Word
  dt        : Byte
  st        : Byte
  execState : ExecState
  fault     : Option FaultRecord
  deriving DecidableEq, Repr

/-- SNAPSHOT (R660). -/
def snapshot (s : State) : Snapshot :=
  ⟨s.v, s.pc, s.sp, s.stack, s.i, s.dt, s.st, s.execState, s.fault⟩

/-- STATUS: EXEC and, when Halted, FAULT (R157). -/
def status (s : State) : ExecState × Option FaultRecord :=
  (s.execState, match s.execState with | .halted => s.fault | _ => none)

/-- Apply an operation to the next state of an answer. -/
def mapNext (f : State → State) : Result → Result
  | .next s => .next (f s)
  | .fault r => .fault r
  | .refused r => .refused r

end Sys2Proof.Machine
end

