-- ==== Sys2Proof/Machine/Boot.lean ====
section
/-! DEFINITION. Reset with its arguments: the font, the program image, the parameters, the host clock
and the host's inputs (R159, R700 to R706). -/

namespace Sys2Proof.Machine

/-- Memory after reset: FONT at 0x000, the image at 0x200, 0 elsewhere (R701, R703). -/
def bootMemory (font : Vector Byte 80) (image : List Byte) : Memory :=
  Memory.writeBytes (Memory.writeBytes [] Config.fontBase font.toList) Config.progBase image

/-- Reset (R700 to R703): an oversized image is refused and produces no state (R702).
DEDUCED (safe): reset is no step, notes/assumptions/22.md. -/
def boot (font : Vector Byte 80) (image : List Byte) (params : Params) (now : Nat)
    (inputs : List HostInput) : Result :=
  if imageWellFormed image then
    .next { State.reset with
      mem := bootMemory font image
      tInstr := now
      tTimer := now
      params := params
      inputs := inputs }
  else .refused (.imageTooLong image.length)

end Sys2Proof.Machine
end

