-- ==== Sys2Proof/Machine/Flags.lean ====
section
/-! DEFINITION. Every flag computation (R103): the value VF receives, and the flag-last write of R104. -/

namespace Sys2Proof.Machine

/-- A flag as a register value, 1 or 0. -/
def flagByte (c : Bool) : Byte := if c then 1#8 else 0#8

/-- Carry of 8xy4: the exact sum exceeds 255 (R446). -/
def carryFlag (vx vy : Byte) : Byte := flagByte (decide (255 < vx.toNat + vy.toNat))

/-- Flag of a subtraction: the minuend is strictly greater (R447, R449). -/
def greaterFlag (minuend subtrahend : Byte) : Byte := flagByte (decide (subtrahend.toNat < minuend.toNat))

/-- Flag of 8xy6: bit 0 before the shift (R448). -/
def lowBitFlag (vx : Byte) : Byte := flagByte (vx.getLsbD 0)

/-- Flag of 8xyE: bit 7 before the shift (R450). -/
def highBitFlag (vx : Byte) : Byte := flagByte (vx.getLsbD 7)

/-- V[x] <- result, then VF <- flag, last (R104). -/
def setWithFlag (s : State) (x : RegIx) (result flag : Byte) : State := setV (setV s x result) vf flag

end Sys2Proof.Machine
end

