-- ==== Sys2Proof/Machine/Operands.lean ====
section
/-! DEFINITION. The operand forms of R303 that take a computation: jump targets, the glyph address, the
decimal digits, and the block of registers V0 to Vx. The plain forms are `getV` (Vx, Vy) and the fields of `Instr`
(kk, nnn, n). -/

namespace Sys2Proof.Machine

/-- The target of Bnnn: the exact sum of nnn and V0 (R427). -/
def offsetTarget (s : State) (nnn : Addr12) : Word := zextAddr nnn + zextByte (getV s 0)

/-- The address Fx29 computes: 5·vx, vx not masked (R472). -/
def glyphAddress (b : Byte) : Word := zextByte b * 5#16

/-- The decimal digits of a byte: hundreds, tens, ones (R473). -/
def bcdDigits (b : Byte) : List Byte := [b / 100#8, (b / 10#8) % 10#8, b % 10#8]

/-- V[0], …, V[x] (R474). -/
def regsUpTo (s : State) (x : RegIx) : List Byte := s.v.toList.take (x.val + 1)

/-- V[k] <- MemRead(I + k) for the one register k (R475). -/
def loadReg (s : State) (k : RegIx) : State := setV s k (Memory.read s.mem (s.i.toNat + k.val))

end Sys2Proof.Machine
end

