-- ==== Sys2Proof/Machine/Alu.lean ====
section
/-! DEFINITION. The register and ALU instructions (R440 to R451): 6xkk, 7xkk, 8xyN, Cxkk. -/

namespace Sys2Proof.Machine

/-- 6xkk LD Vx, kk (R440) -/
def execLdImm (x : RegIx) (kk : Byte) (s : State) : Result := .next (setV s x kk)

/-- 7xkk ADD Vx, kk: modulo 256, no flag (R441) -/
def execAddImm (x : RegIx) (kk : Byte) (s : State) : Result := .next (setV s x (getV s x + kk))

/-- 8xy0 LD Vx, Vy (R442) -/
def execLdReg (x y : RegIx) (s : State) : Result := .next (setV s x (getV s y))

/-- 8xy1 OR Vx, Vy; VF is not reset (R443) -/
def execOrReg (x y : RegIx) (s : State) : Result := .next (setV s x (getV s x ||| getV s y))

/-- 8xy2 AND Vx, Vy (R444) -/
def execAndReg (x y : RegIx) (s : State) : Result := .next (setV s x (getV s x &&& getV s y))

/-- 8xy3 XOR Vx, Vy (R445) -/
def execXorReg (x y : RegIx) (s : State) : Result := .next (setV s x (getV s x ^^^ getV s y))

/-- 8xy4 ADD Vx, Vy with carry out (R446) -/
def execAddReg (x y : RegIx) (s : State) : Result :=
  .next (setWithFlag s x (getV s x + getV s y) (carryFlag (getV s x) (getV s y)))

/-- 8xy5 SUB Vx, Vy (R447) -/
def execSubReg (x y : RegIx) (s : State) : Result :=
  .next (setWithFlag s x (getV s x - getV s y) (greaterFlag (getV s x) (getV s y)))

/-- 8xy6 SHR Vx: the source is Vx, y is ignored (R448) -/
def execShr (x _y : RegIx) (s : State) : Result :=
  .next (setWithFlag s x (getV s x >>> 1) (lowBitFlag (getV s x)))

/-- 8xy7 SUBN Vx, Vy (R449) -/
def execSubnReg (x y : RegIx) (s : State) : Result :=
  .next (setWithFlag s x (getV s y - getV s x) (greaterFlag (getV s y) (getV s x)))

/-- 8xyE SHL Vx: the source is Vx, y is ignored (R450) -/
def execShl (x _y : RegIx) (s : State) : Result :=
  .next (setWithFlag s x (getV s x <<< 1) (highBitFlag (getV s x)))

/-- Cxkk RND Vx, kk: one draw, masked (R451) -/
def execRnd (x : RegIx) (kk : Byte) (s : State) : Result := .next (setV s x (randByte s &&& kk))

end Sys2Proof.Machine
end

