-- ==== Sys2Proof/Machine/ControlFlow.lean ====
section
/-! DEFINITION. Control transfer (R420 to R428): 00EE, 1nnn, 2nnn, 3xkk, 4xkk, 5xy0, 9xy0, Bnnn. PC
already holds the instruction's address plus 2. -/

namespace Sys2Proof.Machine

/-- 00EE RET (R420, R625) -/
def execRet (s : State) : Result :=
  if s.sp = 0 then .next (instrFault .stackUnderflow .ret none s)
  else .next (setPc (pop s) (topOfStack s))

/-- 1nnn JP nnn (R421) -/
def execJp (nnn : Addr12) (s : State) : Result := .next (setPc s (zextAddr nnn))

/-- 2nnn CALL nnn: the return address is the advanced PC (R422, R624) -/
def execCall (nnn : Addr12) (s : State) : Result :=
  if h : s.sp.val < 16 then .next (setPc (push s s.pc h) (zextAddr nnn))
  else .next (instrFault .stackOverflow (.call nnn) none s)

/-- 3xkk SE Vx, kk (R423) -/
def execSeImm (x : RegIx) (kk : Byte) (s : State) : Result := .next (skipIf (getV s x == kk) s)

/-- 4xkk SNE Vx, kk (R424) -/
def execSneImm (x : RegIx) (kk : Byte) (s : State) : Result := .next (skipIf (getV s x != kk) s)

/-- 5xy0 SE Vx, Vy (R425) -/
def execSeReg (x y : RegIx) (s : State) : Result := .next (skipIf (getV s x == getV s y) s)

/-- 9xy0 SNE Vx, Vy (R426) -/
def execSneReg (x y : RegIx) (s : State) : Result := .next (skipIf (getV s x != getV s y) s)

/-- Bnnn JP V0, nnn (R427) -/
def execJpV0 (nnn : Addr12) (s : State) : Result := .next (setPc s (offsetTarget s nnn))

end Sys2Proof.Machine
end

