-- ==== Sys2Proof/Machine/Display.lean ====
section
/-! DEFINITION. The display buffer and the sprite compositor (R490 to R495): 00E0, Dxyn. -/

namespace Sys2Proof.Machine

/-- The bit of DISP[x][y] in the buffer (R496). -/
def pixelIndex (x y : Nat) : Nat := y * Config.dispW + x

/-- DISP[x][y] (R115). -/
def pixel (d : Display) (x y : Nat) : Bool := d.getLsbD (pixelIndex x y)

/-- DISP[x][y] <- DISP[x][y] XOR on (R491). -/
def xorPixel (d : Display) (x y : Nat) (on : Bool) : Display :=
  if on then d ^^^ BitVec.twoPow 2048 (pixelIndex x y) else d

/-- Bit b of a sprite row, counted from the most significant (R492). -/
def spriteBit (row : Byte) (b : Nat) : Bool := row.getLsbD (7 - b)

/-- A draw in progress: the buffer and whether a collision has occurred. -/
structure Canvas where
  disp : Display
  hit  : Bool
  deriving DecidableEq, Repr

/-- One sprite bit onto one pixel, the collision seen before the XOR (R491). -/
def plot (px py : Nat) (on : Bool) (c : Canvas) : Canvas :=
  ⟨xorPixel c.disp px py on, c.hit || (on && pixel c.disp px py)⟩

/-- One sprite row, from the most significant bit on; columns wrap modulo 64 (R491, R493). -/
def drawRow (cx py : Nat) (row : Byte) (c : Canvas) : Canvas :=
  (List.range 8).foldl (fun c b => plot ((cx + b) % Config.dispW) py (spriteBit row b) c) c

/-- The `n` rows of the sprite at address `a`, rows wrap modulo 32 (R491, R493). R494's sentence on a
second draw is read by these rules: DEDUCED (safe), notes/assumptions/18.md. -/
def drawSprite (m : Memory) (a cx cy n : Nat) (c : Canvas) : Canvas :=
  (List.range n).foldl
    (fun c r => drawRow cx ((cy + r) % Config.dispH) (Memory.read m (a + r)) c) c

/-- 00E0 CLS (R490) -/
def execCls (s : State) : Result := .next (setDisp s 0#2048)

/-- Dxyn DRW Vx, Vy, n; VF is written last (R491) -/
def execDrw (x y : RegIx) (n : Fin 16) (s : State) : Result :=
  withRange (.drw x y n) n.val s fun s =>
    let c := drawSprite s.mem s.i.toNat (getV s x).toNat (getV s y).toNat n.val ⟨s.disp, false⟩
    setV (setDisp s c.disp) vf (flagByte c.hit)

end Sys2Proof.Machine
end

