-- ==== Sys2Proof/Machine/IndexMemory.lean ====
section
/-! DEFINITION. The index register and memory transfer (R470 to R475): Annn, Fx1E, Fx29, Fx33, Fx55,
Fx65. I is changed by the first three only. -/

namespace Sys2Proof.Machine

/-- Annn LD I, nnn (R470) -/
def execLdI (nnn : Addr12) (s : State) : Result := .next (setI s (zextAddr nnn))

/-- Fx1E ADD I, Vx: modulo 2^16, no flag (R471) -/
def execAddI (x : RegIx) (s : State) : Result := .next (setI s (s.i + zextByte (getV s x)))

/-- Fx29 LD F, Vx (R472) -/
def execLdF (x : RegIx) (s : State) : Result := .next (setI s (glyphAddress (getV s x)))

/-- Fx33 LD B, Vx (R473) -/
def execLdB (x : RegIx) (s : State) : Result :=
  withRange (.ldB x) 3 s fun s =>
    setMem s (Memory.writeBytes s.mem s.i.toNat (bcdDigits (getV s x)))

/-- Fx55 LD [I], Vx: V0 to Vx inclusive (R474) -/
def execStoreRegs (x : RegIx) (s : State) : Result :=
  withRange (.storeRegs x) (x.val + 1) s fun s =>
    setMem s (Memory.writeBytes s.mem s.i.toNat (regsUpTo s x))

/-- Fx65 LD Vx, [I]: V0 to Vx inclusive, in rising order (R475) -/
def execLoadRegs (x : RegIx) (s : State) : Result :=
  withRange (.loadRegs x) (x.val + 1) s fun s =>
    ((List.finRange 16).take (x.val + 1)).foldl loadReg s

end Sys2Proof.Machine
end

