-- ==== Sys2Proof/Machine/TimersKeys.lean ====
section
/-! DEFINITION. Keypad and timer instructions (R510 to R515): Ex9E, ExA1, Fx07, Fx0A, Fx15, Fx18. -/

namespace Sys2Proof.Machine

/-- The key test of Ex9E and ExA1: skip when the state of key `k` is `wanted`, and for a value with no
key the anomaly KEY_UNMAPPED and no skip (R510, R511, R612). -/
def skipOnKey (wanted : Bool) (k : Byte) (s : State) : State :=
  if 0xF < k.toNat then raiseAnomaly (.keyUnmapped (instrPc s) k) s
  else skipIf (keyDown s k.toNat == wanted) s

/-- Ex9E SKP Vx (R510) -/
def execSkp (x : RegIx) (s : State) : Result := .next (skipOnKey true (getV s x) s)

/-- ExA1 SKNP Vx (R511) -/
def execSknp (x : RegIx) (s : State) : Result := .next (skipOnKey false (getV s x) s)

/-- Fx07 LD Vx, DT (R512) -/
def execLdVxDt (x : RegIx) (s : State) : Result := .next (setV s x s.dt)

/-- Fx0A LD Vx, K: the wait begins and nothing else changes (R513) -/
def execLdVxK (x : RegIx) (s : State) : Result := .next (setExec s (.waitingForKey x))

/-- Fx15 LD DT, Vx (R514) -/
def execLdDtVx (x : RegIx) (s : State) : Result := .next (setDt s (getV s x))

/-- Fx18 LD ST, Vx (R515) -/
def execLdStVx (x : RegIx) (s : State) : Result := .next (setSt s (getV s x))

end Sys2Proof.Machine
end

