-- ==== Sys2Proof/Machine/Scheduler.lean ====
section
/-! DEFINITION. The instruction step and the scheduler's iteration (R400 to R407). -/

namespace Sys2Proof.Machine

/-- Execute(w, ipc): the decoded row's meaning, or the anomaly UNRECOGNIZED and nothing else (R406,
R320, R611). -/
def execute (w : Word) (s : State) : Result :=
  match decodeWord w with
  | .ok i => exec i s
  | .error _ => .next (raiseAnomaly (.unrecognized (instrPc s) w) s)

/-- FetchExecute (R405): a fetch above 0xFFE faults and does not advance PC (R221, R622). -/
def fetchExecute (s : State) : Result :=
  if Config.lastFetch < s.pc.toNat then
    .next (raiseFault .fetchRange s.pc none (some s.pc.toNat) s)
  else execute (Memory.readWord s.mem s.pc.toNat) (advance s)

/-- InstrStep (R404). -/
def instrStep (s : State) : Result :=
  match s.execState with
  | .running => fetchExecute s
  | .waitingForKey r => .next (resolveWait r s)
  | .halted => .next s

/-- The first half of an iteration: the instruction step, if it fires, on cleared output ports (R401). -/
def instrPart (s : State) : Result :=
  if fireInstr s then mapNext (stampInstr (inputNow s).clock) (instrStep (clearOutputs s))
  else .next (clearOutputs s)

/-- The second half of an iteration: the timer step, if it fires (R401). -/
def timerPart (fires : Bool) (c : ClockInput) (s : State) : State :=
  if fires then stampTimer c (timerStep s) else s

/-- One iteration (R400 to R403): both cadences are judged by the one clock reading at its start, and
the instruction step comes first. A stopped scheduler performs no further step.
DESIGN CHOICE (safe): what the stopping pass and a step after it do, notes/assumptions/11.md; fairness is
left to claims, notes/assumptions/19.md. -/
def iteration (s : State) : Result :=
  match s.scheduler with
  | .stopped => .next s
  | .iterating =>
    if (inputNow s).cont then
      mapNext (fun t => consumeInput (timerPart (fireTimer s) (inputNow s).clock t)) (instrPart s)
    else .next (consumeInput (stopScheduler (clearOutputs s)))

end Sys2Proof.Machine
end

