-- ==== Sys2Proof/Machine/Step.lean ====
section
/-! DEFINITION. The step of the machine is one iteration of the scheduler (R400), and the placing of a
word where the next step fetches. -/

namespace Sys2Proof.Machine

/-- One step: one iteration of the scheduler, which performs at most one instruction step and at most
one timer step (R400 to R402). -/
def step : State → Host.Outcome State Fault Refusal := iteration

/-- The script with which the coming iteration fires an instruction step: as it is where its head does so
already; else with a head that does, and that keeps the other ports' values. Past the script's end, where
the fire flags are free, no timer step fires in that iteration. -/
def State.firingInputs (s : State) : List HostInput :=
  match s.inputs with
  | [] => [{ inputNow s with cont := true, clock := .fire true false }]
  | h :: rest =>
    if h.cont && fireInstr s then h :: rest
    else { h with cont := true, clock := .fire true (fireTimer s) } :: rest

/-- `s` with the instruction of `decodeTableWord nbits w` stored where the next step fetches it, high
byte first, and whatever keeps that step from fetching set right: the scheduler iterates, EXEC is
Running, PC is an address that can be fetched from, and the coming iteration fires an instruction step
(notes/assumptions/15.md). -/
def State.withFetchWord (s : State) (nbits w : Nat) : State :=
  let word : Word := BitVec.ofNat 16 (w % 2 ^ nbits)
  let pc : Word := if Config.lastFetch < s.pc.toNat then Config.resetPc else s.pc
  { s with
    mem := Memory.writeBytes s.mem pc.toNat [hiByte word, loByte word]
    pc := pc
    execState := .running
    scheduler := .iterating
    inputs := s.firingInputs }

end Sys2Proof.Machine
end

