-- ==== Sys2Proof/Safety.lean ====
section
/-! DEFINITION. What counts as a safe run, and the invariant of the machine. -/

namespace Sys2Proof.Machine

/-- A failed state: Halted is a failure and never a normal end (R410). -/
def State.failed (s : State) : Bool := decide (s.execState = .halted)

/-- The next `k` steps answer a state that has not failed. -/
def RunsSafely (k : Nat) (s : State) : Prop := ∃ t, Sys2Proof.core.run k s = .next t ∧ t.failed = false

/-- PC has reached `a` with EXEC = Running: how a claim speaks of a program's end at a self-jump (R410). -/
def State.reached (s : State) (a : Word) : Bool := decide (s.pc = a ∧ s.execState = .running)

/-- The inputs that a host supplies in its iterations `n` to `n + k - 1`, as a script. -/
def hostInputs (h : Nat → HostInput) (n k : Nat) : List HostInput := (List.range' n k).map h

/-- The fairness of R402, a premise for claims (no field of State): the host drives every iteration by the
two fire flags, and while CONTINUE stays true each flag is true in infinitely many iterations. -/
structure FairHost (h : Nat → HostInput) : Prop where
  flags : ∀ n, ∃ i t, (h n).clock = .fire i t
  instr : (∀ n, (h n).cont = true) → ∀ n, ∃ m, n ≤ m ∧ ∃ t, (h m).clock = .fire true t
  timer : (∀ n, (h n).cont = true) → ∀ n, ∃ m, n ≤ m ∧ ∃ i, (h m).clock = .fire i true

/-- The invariant of the machine. -/
structure State.Inv (s : State) : Prop where
  /-- Memory is in its canonical form. -/
  memory : Memory.wf s.mem
  /-- PC never exceeds 0x10FE (R107). -/
  pc     : s.pc.toNat ≤ 0x10FE
  /-- Every stack entry, live or stale, is 0 or the address after a CALL, so at most 0x1000 (R112, R422). -/
  stack  : ∀ j : Fin 16, s.stack[j].toNat ≤ 0x1000
  /-- There is a fault record exactly in Halted (R117, R626). -/
  fault  : s.execState = .halted ↔ s.fault.isSome = true

end Sys2Proof.Machine
end

