-- ==== Sys2Proof/Certificates/Slice0/Obligations.lean ====
section
/-! DEFINITION. The statements about the CORE, one `def Obligations.<Name> : Prop` each, in the order of
the spec's files. Each docstring names the rule that the statement formalises. -/

open Sys2Proof Sys2Proof.Machine

/-! ## The words the statements use -/

namespace Sys2Proof.Claims

/-- A row of R310: every word with the row's fixed bits decodes to the instruction of its fields (R301). -/
def RowDecodes (mask pattern : Word) (instr : Word → Instr) : Prop :=
  ∀ w : Word, w &&& mask = pattern → decodeWord w = .ok (instr w)

/-- Register `x` is written with `b`; every other register and all other state are as before. -/
def RegisterWritten (x : RegIx) (b : Byte) (s t : State) : Prop :=
  getV t x = b ∧ (∀ j, j ≠ x → getV t j = getV s j) ∧ t = { s with v := t.v }

/-- Register `x` is written with `b` and then VF with `flag`, so that VF holds the flag even when `x`
is VF (R104); every other register and all other state are as before. -/
def FlaggedWritten (x : RegIx) (b flag : Byte) (s t : State) : Prop :=
  getV t 15 = flag ∧ (x ≠ 15 → getV t x = b) ∧ (∀ j, j ≠ x → j ≠ 15 → getV t j = getV s j) ∧
    t = { s with v := t.v }

/-- The state after the fault of instruction word `w`, fetched at PC − 2: Halted with its record, and
nothing else changed (R620). PC holds the instruction's address plus 2 (R106). -/
def faulted (code : FaultCode) (w : Word) (addr : Option Nat) (s : State) : State :=
  { s with execState := .halted, fault := some ⟨code, s.pc - 2#16, some w, addr⟩ }

/-- The sprite of `Dxyn` at I has a set bit that falls on column `px`, row `py`: bit b of row r, counted
from the most significant, falls on ((vx + b) mod 64, (vy + r) mod 32) (R491 to R493). -/
def SpriteOn (s : State) (x y : RegIx) (n : Fin 16) (px py : Nat) : Prop :=
  ∃ r b, r < n.val ∧ b < 8 ∧ px = ((getV s x).toNat + b) % 64 ∧ py = ((getV s y).toNat + r) % 32 ∧
    (Memory.read s.mem (s.i.toNat + r)).getLsbD (7 - b) = true

/-- Memory byte `a` after `Fx55` at I: Vj at I + j for j up to x, the byte before elsewhere (R474). -/
def byteAfterStore (s : State) (x : RegIx) (a : Nat) : Byte :=
  if s.i.toNat ≤ a ∧ a ≤ s.i.toNat + x.val then getV s (Fin.ofNat 16 (a - s.i.toNat)) else Memory.read s.mem a

/-- Memory byte `a` after `Fx33` at I: the hundreds, tens and ones of Vx at I, I + 1 and I + 2, the byte
before elsewhere (R473). -/
def byteAfterBcd (s : State) (x : RegIx) (a : Nat) : Byte :=
  if a = s.i.toNat then BitVec.ofNat 8 ((getV s x).toNat / 100)
  else if a = s.i.toNat + 1 then BitVec.ofNat 8 ((getV s x).toNat / 10 % 10)
  else if a = s.i.toNat + 2 then BitVec.ofNat 8 ((getV s x).toNat % 10)
  else Memory.read s.mem a

/-- The scheduler begins an iteration with input `h`: it iterates, `h` is the head of the script, and
CONTINUE is true (R400). -/
def Iterates (s : State) (h : HostInput) (rest : List HostInput) : Prop :=
  s.scheduler = .iterating ∧ s.inputs = h :: rest ∧ h.cont = true

/-- The registers an instruction may write (R100, R104): its destination, VF for the flag writers, V0 to
Vx for Fx65. -/
def writesRegister (i : Instr) (j : RegIx) : Prop :=
  match i with
  | .ldImm x _ | .addImm x _ | .ldReg x _ | .orReg x _ | .andReg x _ | .xorReg x _ | .rnd x _
  | .ldVxDt x => j = x
  | .addReg x _ | .subReg x _ | .shr x _ | .subnReg x _ | .shl x _ => j = x ∨ j = 15
  | .drw _ _ _ => j = 15
  | .loadRegs x => j ≤ x
  | .cls | .ret | .jp _ | .call _ | .seImm _ _ | .sneImm _ _ | .seReg _ _ | .sneReg _ _ | .ldI _ | .jpV0 _
  | .skp _ | .sknp _ | .ldVxK _ | .ldDtVx _ | .ldStVx _ | .addI _ | .ldF _ | .ldB _ | .storeRegs _ => False

end Sys2Proof.Claims

open Sys2Proof.Claims

/-! ## Encoding (30_encoding.md) -/

/-- Decoding the word of an instruction gives the instruction back, whatever its operands (R301, R310,
R312). -/
def Obligations.DecodeOfEncodeIsTheInstruction : Prop := ∀ i : Instr, decodeWord (encode i) = .ok i

/-- A word that decodes to an instruction is that instruction's word: no bit of the word is dropped
(R310, R312). -/
def Obligations.EncodeOfDecodedWordIsTheWord : Prop :=
  ∀ (w : Word) (i : Instr), decodeWord w = .ok i → encode i = w

/-- R310: the rows do not overlap, so at most one row matches any word. -/
def Obligations.OpcodeRowsDoNotOverlap : Prop :=
  ∀ (w : Word), ∀ r ∈ opcodeRows, ∀ q ∈ opcodeRows, r.matches w = true → q.matches w = true → r = q

/-- R406: the decoder selects the row whose fixed bits the word has, and it refuses a word exactly when
no row matches (R310, R320). -/
def Obligations.DecoderSelectsTheMatchingRow : Prop :=
  (∀ w i, decodeWord w = .ok i → opcodeRow i ∈ opcodeRows ∧ (opcodeRow i).matches w = true) ∧
  (∀ w, decodeWord w = .error (.unrecognized w) ↔ ∀ r ∈ opcodeRows, r.matches w = false)

/-- R300: every instruction is one 16-bit word, 2 bytes in memory, high byte first: the decoder takes two
bytes of a byte string, whatever they are, and leaves the rest. -/
def Obligations.InstructionIsTwoBytesHighByteFirst : Prop :=
  (∀ i rest, decodeBytes ((encode i).extractLsb' 8 8 :: (encode i).extractLsb' 0 8 :: rest) = .ok (i, rest)) ∧
  (∀ hi lo rest i more, decodeBytes (hi :: lo :: rest) = .ok (i, more) →
    more = rest ∧ (encode i).toNat = hi.toNat * 256 + lo.toNat)

/-- Words written out from the patterns of R310 decode to the instructions they stand for, one or more of
each family. -/
def Obligations.SampleWordsDecodeAsTheTableSays : Prop :=
  decodeWord 0b0000000011100000#16 = .ok .cls ∧
  decodeWord 0b0000000011101110#16 = .ok .ret ∧
  decodeWord 0b0010001000010000#16 = .ok (.call 0x210) ∧
  decodeWord 0b0011001100010000#16 = .ok (.seImm 3 0x10) ∧
  decodeWord 0b0111000111111111#16 = .ok (.addImm 1 0xFF) ∧
  decodeWord 0b1000000100100110#16 = .ok (.shr 1 2) ∧
  decodeWord 0b1011001000001010#16 = .ok (.jpV0 0x20A) ∧
  decodeWord 0b1101001101000101#16 = .ok (.drw 3 4 5) ∧
  decodeWord 0b1110010110100001#16 = .ok (.sknp 5) ∧
  decodeWord 0b1111001000001010#16 = .ok (.ldVxK 2) ∧
  decodeWord 0b1111000101010101#16 = .ok (.storeRegs 1)

/-- R320: executing a word that matches no row raises the anomaly UNRECOGNIZED with its address and the
word, and changes nothing else. -/
def Obligations.UnrecognizedWordRaisesAnomaly : Prop :=
  ∀ (w : Word) (s : State), (∀ r ∈ opcodeRows, w &&& r.mask ≠ r.pattern) →
    execute w s = .next { s with out := { s.out with anomaly := some (.unrecognized (s.pc - 2#16) w) } }

/-! ## The execution cycle and the scheduler (40_execution_cycle.md) -/

/-- Every meaning answers a next state, in every state and for every operand: no instruction is refused
and none leaves the machine without a state (R406). -/
def Obligations.EveryInstructionAnswersANextState : Prop :=
  ∀ (i : Instr) (s : State), ∃ t, exec i s = .next t

/-- Every step answers a next state: each outcome of an iteration that R400 and R404 allow is one. That a
stopped scheduler answers the same state, where R400 says that it performs no further step, is the model's
choice (notes/assumptions/11.md). -/
def Obligations.EveryStepAnswersANextState : Prop := ∀ s : State, ∃ t, step s = .next t

/-- A step that fires an instruction in Running runs the decoded instruction: with PC at most 0xFFE and
the two bytes there, high byte first, decoding to `i`, the step is `exec i` on the state with PC advanced
by 2 and nothing on the output ports, followed by the stamp of T_INSTR, the timer step if it fires, and
the end of the iteration (R401, R405, R406). The outputs and the list of inputs are the model's
(notes/assumptions/3.md, 1.md). -/
def Obligations.StepRunsTheDecodedInstruction : Prop :=
  ∀ (s : State) (i : Instr),
    s.scheduler = .iterating → (inputNow s).cont = true → fireInstr s = true → s.execState = .running →
    s.pc.toNat ≤ 0xFFE →
    decodeWord (Memory.read s.mem s.pc.toNat ++ Memory.read s.mem (s.pc.toNat + 1)) = .ok i →
    step s =
      mapNext (fun t => consumeInput
          (timerPart (fireTimer s) (inputNow s).clock (stampInstr (inputNow s).clock t)))
        (exec i { s with pc := s.pc + 2#16, out := {} })

/-- R405: an instruction step in Running reads the two bytes at PC, high byte first, advances PC by 2 and
executes the word; with PC above 0xFFE it faults instead. -/
def Obligations.FetchReadsTwoBytesAndAdvancesPc : Prop :=
  ∀ s : State, s.execState = .running →
    (s.pc.toNat ≤ 0xFFE →
      instrStep s =
        execute (BitVec.ofNat 16 ((Memory.read s.mem s.pc.toNat).toNat * 256 +
            (Memory.read s.mem (s.pc.toNat + 1)).toNat))
          { s with pc := BitVec.ofNat 16 (s.pc.toNat + 2) }) ∧
    (0xFFF ≤ s.pc.toNat →
      instrStep s = .next { s with
        execState := .halted, fault := some ⟨.fetchRange, s.pc, none, some s.pc.toNat⟩ })

/-- R401: an iteration that reads the clock at `now` fires each cadence exactly when strictly more than its
period has passed since its timestamp, performs the instruction step before the timer step, and resets
the timestamp of each cadence that fired to `now`. The clock's unit (TIMER_PERIOD = 50000), the clearing of
the outputs and the using up of the inputs are the model's (notes/assumptions/5.md, 3.md, 1.md). -/
def Obligations.IterationFollowsTheHostClock : Prop :=
  ∀ (s : State) (h : HostInput) (rest : List HostInput) (now : Nat),
    Iterates s h rest → h.clock = .now now →
    ∃ u v : State,
      ((s.params.instrPeriod : Int) < (now : Int) - s.tInstr →
        ∃ w, instrStep { s with out := {} } = .next w ∧ u = { w with tInstr := now }) ∧
      ((now : Int) - s.tInstr ≤ s.params.instrPeriod → u = { s with out := {} }) ∧
      ((50000 : Int) < (now : Int) - s.tTimer → v = { timerStep u with tTimer := now }) ∧
      ((now : Int) - s.tTimer ≤ 50000 → v = u) ∧
      step s = .next { v with inputs := rest, tick := s.tick + 1 }

/-- R402: an iteration with the free flags FIRE_INSTR and FIRE_TIMER performs the instruction step if the
first is set, then the timer step if the second is. That the flags stamp nothing, the clearing of the
outputs and the using up of the inputs are the model's (notes/assumptions/14.md, 3.md, 1.md). -/
def Obligations.IterationFollowsTheFireFlags : Prop :=
  ∀ (s : State) (h : HostInput) (rest : List HostInput) (fi ft : Bool),
    Iterates s h rest → h.clock = .fire fi ft →
    ∃ u v : State,
      (fi = true → instrStep { s with out := {} } = .next u) ∧ (fi = false → u = { s with out := {} }) ∧
      (ft = true → v = timerStep u) ∧ (ft = false → v = u) ∧
      step s = .next { v with inputs := rest, tick := s.tick + 1 }

/-- R400: when CONTINUE is false at the start of an iteration, the scheduler stops, and from then on every
run of steps leaves the state as it is. What the stopping step clears and uses up, and that a stopped
machine steps to itself, are the model's (notes/assumptions/11.md). -/
def Obligations.SchedulerStopsWhenContinueIsFalse : Prop :=
  ∀ (s : State) (k : Nat), s.scheduler = .iterating → (inputNow s).cont = false →
    ∃ t, step s = .next t ∧
      t = { s with scheduler := .stopped, out := {}, inputs := s.inputs.tail, tick := s.tick + 1 } ∧
      Sys2Proof.core.run k t = .next t

/-- R407: in Halted neither the instruction step nor the timer step does anything, and only reset leaves
Halted: whatever the host's inputs, after any number of steps SNAPSHOT, memory and the display are as
they were. -/
def Obligations.HaltedIsLeftOnlyByReset : Prop :=
  ∀ s : State, s.execState = .halted →
    instrStep s = .next s ∧ timerStep s = s ∧
    ∀ k, ∃ t, Sys2Proof.core.run k s = .next t ∧
      snapshot t = snapshot s ∧ t.mem = s.mem ∧ t.disp = s.disp ∧ t.execState = .halted

/-- R409 and R620: an instruction that faults writes none of its results: the state after it is the state
after the fetch with EXEC = Halted and FAULT set, its pc the instruction's address (PC − 2) and its word
the instruction's word, `encode i` (notes/assumptions/10.md); an instruction that raises an anomaly writes
nothing but the report. -/
def Obligations.FaultsAndAnomaliesWriteNothingElse : Prop :=
  ∀ (i : Instr) (s t : State), exec i s = .next t →
    (t.fault ≠ s.fault → ∃ code addr, t = faulted code (encode i) addr s) ∧
    (t.execState = .halted → s.execState ≠ .halted → t.fault.isSome = true ∧
      ∃ code addr, t = faulted code (encode i) addr s) ∧
    (t.out ≠ s.out → ∃ a, t = { s with out := { s.out with anomaly := some a } })

/-! ## Control transfer (41_control_flow.md) -/

/-- R420: RET pops the most recent return address into PC and leaves the popped entry in place (R112);
with an empty stack it faults and changes nothing else (R625). -/
def Obligations.ReturnPopsTheStackIntoPc : Prop :=
  (∀ w : Word, w = 0x00EE#16 → decodeWord w = .ok .ret) ∧
  (∀ (s : State) (h : 0 < s.sp.val), ∃ t, exec .ret s = .next t ∧ t.sp.val = s.sp.val - 1 ∧
    t.pc = s.stack[s.sp.val - 1]'(by omega) ∧ t = { s with sp := t.sp, pc := t.pc }) ∧
  (∀ s : State, s.sp = 0 → exec .ret s = .next (faulted .stackUnderflow 0x00EE#16 none s))

/-- R421: JP nnn puts the address into PC and changes nothing else. -/
def Obligations.JumpSetsPcToTheAddress : Prop :=
  RowDecodes 0xF000 0x1000 (fun w => .jp (fieldNNN w)) ∧
  ∀ (nnn : Addr12) (s : State), ∃ t, exec (.jp nnn) s = .next t ∧ t.pc.toNat = nnn.toNat ∧
    t = { s with pc := t.pc }

/-- R422: CALL nnn pushes the advanced PC and jumps, up to the 16th entry; with 16 entries in use it
faults and changes nothing else (R624). -/
def Obligations.CallPushesTheReturnAddress : Prop :=
  RowDecodes 0xF000 0x2000 (fun w => .call (fieldNNN w)) ∧
  (∀ (nnn : Addr12) (s : State), s.sp.val < 16 → ∃ t, exec (.call nnn) s = .next t ∧
    t.sp.val = s.sp.val + 1 ∧ t.pc.toNat = nnn.toNat ∧
    (∀ j : Fin 16, t.stack[j] = if j.val = s.sp.val then s.pc else s.stack[j]) ∧
    t = { s with sp := t.sp, pc := t.pc, stack := t.stack }) ∧
  (∀ (nnn : Addr12) (s : State), s.sp.val = 16 →
    exec (.call nnn) s = .next (faulted .stackOverflow (0x2#4 ++ nnn) none s))

/-- R423 and R424: 3xkk skips 2 bytes when Vx equals kk, 4xkk when it differs; nothing but PC changes. -/
def Obligations.ImmediateSkipsCompareVxWithKk : Prop :=
  RowDecodes 0xF000 0x3000 (fun w => .seImm (fieldX w) (fieldKK w)) ∧
  RowDecodes 0xF000 0x4000 (fun w => .sneImm (fieldX w) (fieldKK w)) ∧
  ∀ (x : RegIx) (kk : Byte) (s : State),
    exec (.seImm x kk) s = .next { s with pc := if getV s x = kk then s.pc + 2#16 else s.pc } ∧
    exec (.sneImm x kk) s = .next { s with pc := if getV s x = kk then s.pc else s.pc + 2#16 }

/-- R425 and R426: 5xy0 skips 2 bytes when Vx equals Vy, 9xy0 when they differ; nothing but PC changes; 5xyN
and 9xyN with N other than 0 are unrecognized. -/
def Obligations.RegisterSkipsCompareVxWithVy : Prop :=
  RowDecodes 0xF00F 0x5000 (fun w => .seReg (fieldX w) (fieldY w)) ∧
  RowDecodes 0xF00F 0x9000 (fun w => .sneReg (fieldX w) (fieldY w)) ∧
  (∀ w : Word, w &&& 0xF000 = 0x5000 ∨ w &&& 0xF000 = 0x9000 → w &&& 0x000F ≠ 0 →
    decodeWord w = .error (.unrecognized w)) ∧
  ∀ (x y : RegIx) (s : State),
    exec (.seReg x y) s = .next { s with pc := if getV s x = getV s y then s.pc + 2#16 else s.pc } ∧
    exec (.sneReg x y) s = .next { s with pc := if getV s x = getV s y then s.pc else s.pc + 2#16 }

/-- R427: Bnnn jumps to the exact sum of nnn and V0, not reduced modulo 4096. -/
def Obligations.OffsetJumpAddsV0Exactly : Prop :=
  RowDecodes 0xF000 0xB000 (fun w => .jpV0 (fieldNNN w)) ∧
  ∀ (nnn : Addr12) (s : State), ∃ t, exec (.jpV0 nnn) s = .next t ∧
    t.pc.toNat = nnn.toNat + (getV s 0).toNat ∧ t.pc.toNat ≤ 0x10FE ∧ t = { s with pc := t.pc }

/-! ## Registers and the ALU (42_alu.md, 10_state.md) -/

/-- R440 and R441: 6xkk loads kk; 7xkk adds it modulo 256 and writes no flag. -/
def Obligations.ImmediateLoadAndAddWriteVxOnly : Prop :=
  RowDecodes 0xF000 0x6000 (fun w => .ldImm (fieldX w) (fieldKK w)) ∧
  RowDecodes 0xF000 0x7000 (fun w => .addImm (fieldX w) (fieldKK w)) ∧
  ∀ (x : RegIx) (kk : Byte) (s : State),
    (∃ t, exec (.ldImm x kk) s = .next t ∧ RegisterWritten x kk s t) ∧
    (∃ t, exec (.addImm x kk) s = .next t ∧
      RegisterWritten x (BitVec.ofNat 8 (((getV s x).toNat + kk.toNat) % 256)) s t)

/-- R442 to R445: copy, OR, AND and XOR write Vx bit by bit from the values before, and no flag. -/
def Obligations.CopyAndLogicWriteVxOnly : Prop :=
  RowDecodes 0xF00F 0x8000 (fun w => .ldReg (fieldX w) (fieldY w)) ∧
  RowDecodes 0xF00F 0x8001 (fun w => .orReg (fieldX w) (fieldY w)) ∧
  RowDecodes 0xF00F 0x8002 (fun w => .andReg (fieldX w) (fieldY w)) ∧
  RowDecodes 0xF00F 0x8003 (fun w => .xorReg (fieldX w) (fieldY w)) ∧
  ∀ (x y : RegIx) (s : State),
    (∃ t, exec (.ldReg x y) s = .next t ∧ RegisterWritten x (getV s y) s t) ∧
    (∃ t, exec (.orReg x y) s = .next t ∧ RegisterWritten x (getV s x ||| getV s y) s t) ∧
    (∃ t, exec (.andReg x y) s = .next t ∧ RegisterWritten x (getV s x &&& getV s y) s t) ∧
    (∃ t, exec (.xorReg x y) s = .next t ∧ RegisterWritten x (getV s x ^^^ getV s y) s t)

/-- R446 with R104: 8xy4 writes the sum modulo 256 and then VF = 1 iff the exact sum exceeds 255. -/
def Obligations.AddSetsVfToTheCarry : Prop :=
  RowDecodes 0xF00F 0x8004 (fun w => .addReg (fieldX w) (fieldY w)) ∧
  ∀ (x y : RegIx) (s : State), ∃ t, exec (.addReg x y) s = .next t ∧
    FlaggedWritten x (BitVec.ofNat 8 (((getV s x).toNat + (getV s y).toNat) % 256))
      (if 255 < (getV s x).toNat + (getV s y).toNat then 1 else 0) s t

/-- R447 and R449 with R104: 8xy5 and 8xy7 subtract modulo 256 and then set VF = 1 iff the minuend is
strictly greater than the subtrahend. -/
def Obligations.SubtractionsSetVfWhenStrictlyGreater : Prop :=
  RowDecodes 0xF00F 0x8005 (fun w => .subReg (fieldX w) (fieldY w)) ∧
  RowDecodes 0xF00F 0x8007 (fun w => .subnReg (fieldX w) (fieldY w)) ∧
  ∀ (x y : RegIx) (s : State),
    (∃ t, exec (.subReg x y) s = .next t ∧
      FlaggedWritten x (BitVec.ofNat 8 (((getV s x).toNat + 256 - (getV s y).toNat) % 256))
        (if (getV s y).toNat < (getV s x).toNat then 1 else 0) s t) ∧
    (∃ t, exec (.subnReg x y) s = .next t ∧
      FlaggedWritten x (BitVec.ofNat 8 (((getV s y).toNat + 256 - (getV s x).toNat) % 256))
        (if (getV s x).toNat < (getV s y).toNat then 1 else 0) s t)

/-- R448 and R450 with R104: 8xy6 and 8xyE shift Vx by one, whatever y is, and then set VF to the bit
shifted out. -/
def Obligations.ShiftsSetVfToTheBitShiftedOut : Prop :=
  RowDecodes 0xF00F 0x8006 (fun w => .shr (fieldX w) (fieldY w)) ∧
  RowDecodes 0xF00F 0x800E (fun w => .shl (fieldX w) (fieldY w)) ∧
  ∀ (x y : RegIx) (s : State),
    (∃ t, exec (.shr x y) s = .next t ∧
      FlaggedWritten x (BitVec.ofNat 8 ((getV s x).toNat / 2))
        (BitVec.ofNat 8 ((getV s x).toNat % 2)) s t) ∧
    (∃ t, exec (.shl x y) s = .next t ∧
      FlaggedWritten x (BitVec.ofNat 8 ((getV s x).toNat * 2 % 256))
        (BitVec.ofNat 8 ((getV s x).toNat / 128)) s t)

/-- R451: Cxkk writes the byte drawn from RAND masked with kk, and every byte can be the draw. -/
def Obligations.RandomWritesTheMaskedDraw : Prop :=
  RowDecodes 0xF000 0xC000 (fun w => .rnd (fieldX w) (fieldKK w)) ∧
  (∀ (x : RegIx) (kk : Byte) (s : State), ∃ t, exec (.rnd x kk) s = .next t ∧
    RegisterWritten x ((inputNow s).rand &&& kk) s t) ∧
  (∀ (r : Byte) (s : State), ∃ ins, (inputNow { s with inputs := ins }).rand = r)

/-- R455: 8xy4 and then 8xy5 with the same x and y, neither VF nor each other, restores Vx, and VF is 1 iff
the intermediate sum modulo 256 is strictly greater than Vy. -/
def Obligations.AddThenSubtractRestoresVx : Prop :=
  ∀ (x y : RegIx) (s t u : State), x ≠ 15 → y ≠ 15 → x ≠ y →
    exec (.addReg x y) s = .next t → exec (.subReg x y) t = .next u →
    getV u x = getV s x ∧
    (getV u 15 = 1 ↔ (getV s y).toNat < ((getV s x).toNat + (getV s y).toNat) % 256) ∧
    (getV u 15 = 0 ∨ getV u 15 = 1)

/-- R100 and R16: a register that is no destination of an instruction, nor VF for the instructions that
write it as a flag (R103), keeps its value. -/
def Obligations.RegistersOtherThanDestinationsAreUnchanged : Prop :=
  ∀ (i : Instr) (j : RegIx) (s t : State), exec i s = .next t → ¬ writesRegister i j → getV t j = getV s j

/-- R100, the column "written by", for the instructions, with the frame rule R16: only Fx33 and Fx55 write
memory, a register is written only as `writesRegister` says, only Annn, Fx1E and Fx29 write I, only the
jumps, 00EE, 2nnn and the skips write PC beyond the fetch, only 2nnn the stack, only 2nnn and 00EE SP, only
Fx15 DT, only Fx18 ST, only 00E0 and Dxyn the display, only Fx0A or a fault EXEC, only the six instructions
that can fault FAULT, and none the timestamps. Of the model's own fields an instruction writes the anomaly
report only, and only Ex9E and ExA1 do (notes/assumptions/3.md). -/
def Obligations.StateIsWrittenOnlyByItsWriters : Prop :=
  ∀ (i : Instr) (s t : State), exec i s = .next t →
    ((∃ a, Memory.read t.mem a ≠ Memory.read s.mem a) → ∃ x, i = .ldB x ∨ i = .storeRegs x) ∧
    (t.mem ≠ s.mem → ∃ x, i = .ldB x ∨ i = .storeRegs x) ∧
    (∀ j, getV t j ≠ getV s j → writesRegister i j) ∧
    (t.i ≠ s.i → (∃ nnn, i = .ldI nnn) ∨ ∃ x, i = .addI x ∨ i = .ldF x) ∧
    (t.pc ≠ s.pc → i = .ret ∨ (∃ nnn, i = .jp nnn ∨ i = .call nnn ∨ i = .jpV0 nnn) ∨
      (∃ x kk, i = .seImm x kk ∨ i = .sneImm x kk) ∨ (∃ x y, i = .seReg x y ∨ i = .sneReg x y) ∨
      ∃ x, i = .skp x ∨ i = .sknp x) ∧
    (t.stack ≠ s.stack → ∃ nnn, i = .call nnn) ∧
    (t.sp ≠ s.sp → i = .ret ∨ ∃ nnn, i = .call nnn) ∧
    (t.dt ≠ s.dt → ∃ x, i = .ldDtVx x) ∧
    (t.st ≠ s.st → ∃ x, i = .ldStVx x) ∧
    (t.disp ≠ s.disp → i = .cls ∨ ∃ x y n, i = .drw x y n) ∧
    (t.execState ≠ s.execState → (∃ x, i = .ldVxK x) ∨ t.execState = .halted) ∧
    (t.fault ≠ s.fault → i = .ret ∨ (∃ nnn, i = .call nnn) ∨ (∃ x y n, i = .drw x y n) ∨
      ∃ x, i = .ldB x ∨ i = .storeRegs x ∨ i = .loadRegs x) ∧
    (t.out ≠ s.out → t.out.frame = s.out.frame ∧ ∃ x, i = .skp x ∨ i = .sknp x) ∧
    t.tInstr = s.tInstr ∧ t.tTimer = s.tTimer ∧ t.params = s.params ∧ t.scheduler = s.scheduler ∧
    t.inputs = s.inputs ∧ t.tick = s.tick

/-! ## The index register and memory (43_index_memory.md, 20_memory.md) -/

/-- R470 to R472: Annn loads I; Fx1E adds Vx modulo 2^16; Fx29 puts 5·vx into I, vx not masked. None
touches memory or a flag. -/
def Obligations.IndexInstructionsWriteIOnly : Prop :=
  RowDecodes 0xF000 0xA000 (fun w => .ldI (fieldNNN w)) ∧
  RowDecodes 0xF0FF 0xF01E (fun w => .addI (fieldX w)) ∧
  RowDecodes 0xF0FF 0xF029 (fun w => .ldF (fieldX w)) ∧
  (∀ (nnn : Addr12) (s : State), ∃ t, exec (.ldI nnn) s = .next t ∧ t.i.toNat = nnn.toNat ∧
    t = { s with i := t.i }) ∧
  (∀ (x : RegIx) (s : State),
    (∃ t, exec (.addI x) s = .next t ∧ t.i.toNat = (s.i.toNat + (getV s x).toNat) % 65536 ∧
      t = { s with i := t.i }) ∧
    (∃ t, exec (.ldF x) s = .next t ∧ t.i.toNat = (getV s x).toNat * 5 ∧ t = { s with i := t.i }))

/-- R473: with I + 2 below 4096, Fx33 stores the hundreds, tens and ones of Vx at I, I+1 and I+2 and
changes nothing else; otherwise it faults at the first address that is 4096 or above and writes nothing
(R230, R623). -/
def Obligations.BcdStoresThreeDigitsAtI : Prop :=
  RowDecodes 0xF0FF 0xF033 (fun w => .ldB (fieldX w)) ∧
  (∀ (x : RegIx) (s : State), Memory.wf s.mem → s.i.toNat + 2 < 4096 →
    ∃ t, exec (.ldB x) s = .next t ∧
      (Memory.read t.mem s.i.toNat).toNat = (getV s x).toNat / 100 ∧
      (Memory.read t.mem (s.i.toNat + 1)).toNat = (getV s x).toNat / 10 % 10 ∧
      (Memory.read t.mem (s.i.toNat + 2)).toNat = (getV s x).toNat % 10 ∧
      (∀ a, a < s.i.toNat ∨ s.i.toNat + 2 < a → Memory.read t.mem a = Memory.read s.mem a) ∧
      t = { s with mem := t.mem }) ∧
  (∀ (x : RegIx) (s : State), 4096 ≤ s.i.toNat + 2 →
    exec (.ldB x) s =
      .next (faulted .memRange (0xF#4 ++ nibbleOf x ++ 0x33#8) (some (max s.i.toNat 4096)) s))

/-- R474: with I + x below 4096, Fx55 stores V0 to Vx at I to I+x and changes nothing else; otherwise it
faults and writes nothing (R230, R623). -/
def Obligations.BlockStoreWritesV0ToVxAtI : Prop :=
  RowDecodes 0xF0FF 0xF055 (fun w => .storeRegs (fieldX w)) ∧
  (∀ (x : RegIx) (s : State), Memory.wf s.mem → s.i.toNat + x.val < 4096 →
    ∃ t, exec (.storeRegs x) s = .next t ∧
      (∀ j, j ≤ x → Memory.read t.mem (s.i.toNat + j.val) = getV s j) ∧
      (∀ a, a < s.i.toNat ∨ s.i.toNat + x.val < a → Memory.read t.mem a = Memory.read s.mem a) ∧
      t = { s with mem := t.mem }) ∧
  (∀ (x : RegIx) (s : State), 4096 ≤ s.i.toNat + x.val →
    exec (.storeRegs x) s =
      .next (faulted .memRange (0xF#4 ++ nibbleOf x ++ 0x55#8) (some (max s.i.toNat 4096)) s))

/-- R475: with I + x below 4096, Fx65 loads V0 to Vx from I to I+x and changes nothing else; otherwise it
faults and writes no register (R230, R623). -/
def Obligations.BlockLoadReadsV0ToVxAtI : Prop :=
  RowDecodes 0xF0FF 0xF065 (fun w => .loadRegs (fieldX w)) ∧
  (∀ (x : RegIx) (s : State), s.i.toNat + x.val < 4096 →
    ∃ t, exec (.loadRegs x) s = .next t ∧
      (∀ j, getV t j = if j ≤ x then Memory.read s.mem (s.i.toNat + j.val) else getV s j) ∧
      t = { s with v := t.v }) ∧
  (∀ (x : RegIx) (s : State), 4096 ≤ s.i.toNat + x.val →
    exec (.loadRegs x) s =
      .next (faulted .memRange (0xF#4 ++ nibbleOf x ++ 0x65#8) (some (max s.i.toNat 4096)) s))

/-- Fx55 and then Fx65 with the same x and I leave every register as it was (R475, vector L1.6). -/
def Obligations.BlockStoreThenLoadRestoresRegisters : Prop :=
  ∀ (x : RegIx) (s : State), Memory.wf s.mem → s.i.toNat + x.val < 4096 →
    ∃ t, exec (.storeRegs x) s = .next t ∧ exec (.loadRegs x) t = .next t ∧ t.v = s.v

/-- R242: a byte stored by Fx55 or Fx33 is the byte fetched by the next fetch of its address: after the
store, an instruction step with PC at any address that can be fetched from, be both, one or none of its two
bytes stored ones, executes the word of the bytes as stored. -/
def Obligations.StoredBytesAreFetchedAtOnce : Prop :=
  ∀ (s t : State) (x : RegIx) (a : Nat), Memory.wf s.mem → s.execState = .running → a ≤ 0xFFE →
    (s.i.toNat + x.val < 4096 → exec (.storeRegs x) s = .next t →
      instrStep { t with pc := BitVec.ofNat 16 a } =
        execute (byteAfterStore s x a ++ byteAfterStore s x (a + 1)) { t with pc := BitVec.ofNat 16 (a + 2) }) ∧
    (s.i.toNat + 2 < 4096 → exec (.ldB x) s = .next t →
      instrStep { t with pc := BitVec.ofNat 16 a } =
        execute (byteAfterBcd s x a ++ byteAfterBcd s x (a + 1)) { t with pc := BitVec.ofNat 16 (a + 2) })

/-! ## The display (44_display.md) -/

/-- R490: CLS turns every pixel off and changes nothing else, VF included. -/
def Obligations.ClearScreenTurnsEveryPixelOff : Prop :=
  (∀ w : Word, w = 0x00E0#16 → decodeWord w = .ok .cls) ∧
  ∀ s : State, ∃ t, exec .cls s = .next t ∧ (∀ x y, x < 64 → y < 32 → pixel t.disp x y = false) ∧
    t = { s with disp := t.disp }

/-- R491 to R493: with the sprite's bytes below 4096, Dxyn flips exactly the pixels on which a set sprite
bit falls, columns modulo 64 and rows modulo 32, sets VF to 1 iff one of them was on and to 0 otherwise,
and changes nothing else; otherwise it faults and changes neither the display nor VF. -/
def Obligations.DrawFlipsTheSpritesPixels : Prop :=
  RowDecodes 0xF000 0xD000 (fun w => .drw (fieldX w) (fieldY w) (fieldN w)) ∧
  (∀ (x y : RegIx) (n : Fin 16) (s : State), n = 0 ∨ s.i.toNat + n.val ≤ 4096 →
    ∃ t, exec (.drw x y n) s = .next t ∧
      (∀ px py, px < 64 → py < 32 →
        (pixel t.disp px py = true ↔ ¬ (pixel s.disp px py = true ↔ SpriteOn s x y n px py))) ∧
      (getV t 15 = 1 ↔ ∃ px py, pixel s.disp px py = true ∧ SpriteOn s x y n px py) ∧
      (getV t 15 = 0 ∨ getV t 15 = 1) ∧
      (∀ j, j ≠ 15 → getV t j = getV s j) ∧
      t = { s with disp := t.disp, v := t.v }) ∧
  (∀ (x y : RegIx) (n : Fin 16) (s : State), n ≠ 0 → 4096 < s.i.toNat + n.val →
    exec (.drw x y n) s =
      .next (faulted .memRange (0xD#4 ++ nibbleOf x ++ nibbleOf y ++ nibbleOf n)
        (some (max s.i.toNat 4096)) s))

/-- R494: drawing the same sprite twice at the same coordinates restores the display, and where no pixel it
touches was on, the second draw sets VF = 1 iff the sprite has a set bit. -/
def Obligations.DrawingTwiceRestoresTheDisplay : Prop :=
  ∀ (x y : RegIx) (n : Fin 16) (s t u : State), x ≠ 15 → y ≠ 15 → n = 0 ∨ s.i.toNat + n.val ≤ 4096 →
    exec (.drw x y n) s = .next t → exec (.drw x y n) t = .next u →
    u.disp = s.disp ∧
    ((∀ px py, SpriteOn s x y n px py → pixel s.disp px py = false) →
      (getV u 15 = 1 ↔ ∃ px py, SpriteOn s x y n px py))

/-- R495: Dxy0 passes for every I, changes no pixel and sets VF = 0. -/
def Obligations.DrawOfNoRowsClearsVfOnly : Prop :=
  ∀ (x y : RegIx) (s : State), ∃ t, exec (.drw x y 0) s = .next t ∧ RegisterWritten 15 0 s t

/-- R496: FRAME has 2048 values, row-major, top row first, PIXEL_ON for a pixel that is on and PIXEL_OFF
for one that is off. -/
def Obligations.FrameIsTheDisplayRowByRow : Prop :=
  ∀ (p : Params) (d : Display), (render p d).length = 2048 ∧
    ∀ x y, x < 64 → y < 32 →
      (render p d)[y * 64 + x]? = some (if pixel d x y = true then p.pixelOn else p.pixelOff)

/-! ## Keys and timers (45_timers_keys.md, 60_exceptions.md) -/

/-- R510 and R511, R612: for a key value at most 0xF, Ex9E skips when the key is held and ExA1 when it is
not; for a larger value both raise KEY_UNMAPPED and do not skip. Nothing else changes. -/
def Obligations.KeySkipsTestTheHeldKey : Prop :=
  RowDecodes 0xF0FF 0xE09E (fun w => .skp (fieldX w)) ∧
  RowDecodes 0xF0FF 0xE0A1 (fun w => .sknp (fieldX w)) ∧
  (∀ (x : RegIx) (s : State), (getV s x).toNat ≤ 0xF →
    exec (.skp x) s = .next { s with
      pc := if (inputNow s).keyDown.getLsbD (getV s x).toNat = true then s.pc + 2#16 else s.pc } ∧
    exec (.sknp x) s = .next { s with
      pc := if (inputNow s).keyDown.getLsbD (getV s x).toNat = true then s.pc else s.pc + 2#16 }) ∧
  (∀ (x : RegIx) (s : State), 0xF < (getV s x).toNat →
    exec (.skp x) s = .next { s with
      out := { s.out with anomaly := some (.keyUnmapped (s.pc - 2#16) (getV s x)) } } ∧
    exec (.sknp x) s = .next { s with
      out := { s.out with anomaly := some (.keyUnmapped (s.pc - 2#16) (getV s x)) } })

/-- R512, R514 and R515: Fx07 reads DT, Fx15 writes DT, Fx18 writes ST, and nothing else changes. -/
def Obligations.TimerInstructionsMoveOneByte : Prop :=
  RowDecodes 0xF0FF 0xF007 (fun w => .ldVxDt (fieldX w)) ∧
  RowDecodes 0xF0FF 0xF015 (fun w => .ldDtVx (fieldX w)) ∧
  RowDecodes 0xF0FF 0xF018 (fun w => .ldStVx (fieldX w)) ∧
  ∀ (x : RegIx) (s : State),
    (∃ t, exec (.ldVxDt x) s = .next t ∧ RegisterWritten x s.dt s t) ∧
    exec (.ldDtVx x) s = .next { s with dt := getV s x } ∧
    exec (.ldStVx x) s = .next { s with st := getV s x }

/-- R513: Fx0A enters WaitingForKey(x) and alters no other state. -/
def Obligations.KeyWaitBeginsAndChangesNothingElse : Prop :=
  RowDecodes 0xF0FF 0xF00A (fun w => .ldVxK (fieldX w)) ∧
  ∀ (x : RegIx) (s : State), exec (.ldVxK x) s = .next { s with execState := .waitingForKey x }

/-- R520: an instruction step in WaitingForKey(r) does nothing without a key press; a press d puts d into
V[r] and makes EXEC Running, with no fetch. -/
def Obligations.KeyPressResolvesTheWait : Prop :=
  ∀ (r : RegIx) (s : State), s.execState = .waitingForKey r →
    ((inputNow s).keyPress = none → instrStep s = .next s) ∧
    (∀ d, (inputNow s).keyPress = some d → ∃ t, instrStep s = .next t ∧ t.execState = .running ∧
      (getV t r).toNat = d.val ∧ (∀ j, j ≠ r → getV t j = getV s j) ∧
      t = { s with v := t.v, execState := t.execState })

/-- R522: a wait that the host never resolves stays for ever: as long as the script reports no key press,
every run is still in WaitingForKey(r) with PC, registers, memory and display as they were. -/
def Obligations.WaitWithoutKeyPressNeverEnds : Prop :=
  ∀ (r : RegIx) (k : Nat) (s : State), s.execState = .waitingForKey r → k ≤ s.inputs.length →
    (∀ h ∈ s.inputs, h.keyPress = none) →
    ∃ t, Sys2Proof.core.run k s = .next t ∧ t.execState = .waitingForKey r ∧ t.pc = s.pc ∧ t.v = s.v ∧
      t.mem = s.mem ∧ t.disp = s.disp ∧ t.dt.toNat ≤ s.dt.toNat

/-- R640: outside Halted a timer step counts DT and ST down by one, stopping at 0, and renders the display,
and nothing else changes; in Halted it does nothing. -/
def Obligations.TimerStepCountsDownAndRenders : Prop :=
  ∀ s : State,
    (s.execState ≠ .halted →
      ∃ t, timerStep s = t ∧ t.dt.toNat = s.dt.toNat - 1 ∧ t.st.toNat = s.st.toNat - 1 ∧
        t.out.frame = some (render s.params s.disp) ∧ t.out.anomaly = s.out.anomaly ∧
        t = { s with dt := t.dt, st := t.st, out := t.out }) ∧
    (s.execState = .halted → timerStep s = s)

/-- R627: the conditions of different instructions are disjoint: MEM_RANGE only from Dxyn, Fx33, Fx55 and
Fx65, STACK_OVERFLOW only from 2nnn, STACK_UNDERFLOW only from 00EE, FETCH_RANGE from no instruction;
KEY_UNMAPPED is the only anomaly of an instruction, and only of Ex9E and ExA1 with Vx above 0xF, without a
fault; and UNRECOGNIZED only for a word that matches no row. -/
def Obligations.FaultsComeOnlyFromTheirInstructions : Prop :=
  (∀ (i : Instr) (s t : State), s.fault = none → s.out.anomaly = none → exec i s = .next t →
    (∀ f, t.fault = some f →
      (f.code = .memRange ∧ ((∃ x y n, i = .drw x y n) ∨ ∃ x, i = .ldB x ∨ i = .storeRegs x ∨ i = .loadRegs x)) ∨
      (f.code = .stackOverflow ∧ ∃ nnn, i = .call nnn) ∨
      (f.code = .stackUnderflow ∧ i = .ret)) ∧
    (∀ a, t.out.anomaly = some a → t.fault = none ∧
      ∃ x, (i = .skp x ∨ i = .sknp x) ∧ 0xF < (getV s x).toNat ∧ a = .keyUnmapped (s.pc - 2#16) (getV s x))) ∧
  (∀ (w : Word) (s t : State) (pc word : Word), s.out.anomaly = none → execute w s = .next t →
    t.out.anomaly = some (.unrecognized pc word) →
    pc = s.pc - 2#16 ∧ word = w ∧ t.fault = s.fault ∧ ∀ r ∈ opcodeRows, r.matches w = false)

/-! ## The host's ports (10_state.md) -/

/-- R151: the key press is read only on an instruction step in WaitingForKey; at any other time it is
ignored and not latched: the step is the same whatever KEYPRESS carries. -/
def Obligations.KeyPressIsIgnoredUnlessWaiting : Prop :=
  ∀ (s : State) (h : HostInput) (rest : List HostInput) (press : Option (Fin 16)),
    s.scheduler = .iterating → s.inputs = h :: rest → (∀ r, s.execState ≠ .waitingForKey r) →
    step { s with inputs := { h with keyPress := press } :: rest } = step s

/-- R150 to R152: no instruction but Ex9E, ExA1 and Cxkk reads an input port: with other inputs every other
instruction gives the same state but for the inputs themselves. -/
def Obligations.PortsAreReadOnlyByTheirInstructions : Prop :=
  ∀ (i : Instr) (s : State) (ins : List HostInput),
    (∀ x, i ≠ .skp x) → (∀ x, i ≠ .sknp x) → (∀ x kk, i ≠ .rnd x kk) →
    exec i { s with inputs := ins } = mapNext (fun t => { t with inputs := ins }) (exec i s)

/-! ## Reset (70_reset_and_hazards.md) -/

/-- R703: the values of every piece of state after reset with a font, an image of at most 3584 bytes and a
host clock. -/
def Obligations.ResetSetsEveryPieceOfState : Prop :=
  ∀ (font : Vector Byte 80) (image : List Byte) (p : Params) (now : Nat) (ins : List HostInput),
    image.length ≤ 3584 → ∃ t, boot font image p now ins = .next t ∧
      (∀ a (h : a < 80), Memory.read t.mem a = font[a]) ∧
      (∀ a, 80 ≤ a → a < 0x200 → Memory.read t.mem a = 0) ∧
      (∀ j (h : j < image.length), Memory.read t.mem (0x200 + j) = image[j]) ∧
      (∀ a, 0x200 + image.length ≤ a → a < 4096 → Memory.read t.mem a = 0) ∧
      (∀ j, getV t j = 0) ∧ t.i = 0 ∧ t.pc = 0x200 ∧ (∀ j : Fin 16, t.stack[j] = 0) ∧ t.sp = 0 ∧
      t.dt = 0 ∧ t.st = 0 ∧ (∀ x y, pixel t.disp x y = false) ∧ t.execState = .running ∧
      t.fault = none ∧ t.tInstr = now ∧ t.tTimer = now

/-- R702: an image longer than 3584 bytes is refused and produces no machine state; every other image is
accepted. -/
def Obligations.OversizedImageIsRefused : Prop :=
  ∀ (font : Vector Byte 80) (image : List Byte) (p : Params) (now : Nat) (ins : List HostInput),
    (3584 < image.length → ∀ t, boot font image p now ins ≠ .next t) ∧
    (image.length ≤ 3584 → ∃ t, boot font image p now ins = .next t)

/-- The model's reset state is reset with the default font, an empty image, the default parameters, and
the host clock at 0 (the model's choice, notes/assumptions/4.md and 5.md). -/
def Obligations.ResetStateIsTheDefaultBoot : Prop :=
  ∃ font : Vector Byte 80, font.toList = defaultFont ∧ boot font [] {} 0 [] = .next State.reset

/-! ## The invariant -/

/-- The invariant holds after every accepted reset. -/
def Obligations.InvariantHoldsAtReset : Prop :=
  State.reset.Inv ∧
  ∀ (font : Vector Byte 80) (image : List Byte) (p : Params) (now : Nat) (ins : List HostInput) (t : State),
    boot font image p now ins = .next t → t.Inv

/-- Every step keeps the invariant: memory stays canonical, PC never exceeds 0x10FE (R107), every stack
entry stays at most 0x1000, and there is a fault record exactly in Halted. -/
def Obligations.EveryStepKeepsTheInvariant : Prop :=
  ∀ s t : State, s.Inv → step s = .next t → t.Inv

/-! ## Fairness of the fire flags (40_execution_cycle.md) -/

/-- R402 with a fair host that keeps CONTINUE true: whatever the state of an iterating machine, an iteration
with FIRE_INSTR comes, and until then only the timers, the outputs and the inputs used up differ. Fairness is
the premise `FairHost` (notes/assumptions/19.md). -/
def Obligations.FairHostFiresTheNextInstructionStep : Prop :=
  ∀ (h : Nat → HostInput) (s : State), FairHost h → (∀ n, (h n).cont = true) → s.scheduler = .iterating →
    ∃ k u, Sys2Proof.core.run k { s with inputs := hostInputs h 0 (k + 1) } = .next u ∧
      u.inputs = [h k] ∧ (inputNow u).cont = true ∧ fireInstr u = true ∧
      u = { s with dt := u.dt, st := u.st, out := u.out, inputs := u.inputs, tick := u.tick }

/-- R402 and R522 with a fair host that keeps CONTINUE true and reports no key: in WaitingForKey both timers
count down to 0, and nothing else changes but the outputs and the inputs used up. Fairness is the premise
`FairHost` (notes/assumptions/19.md). -/
def Obligations.FairHostRunsTheTimersOutInAWait : Prop :=
  ∀ (h : Nat → HostInput) (r : RegIx) (s : State), FairHost h → (∀ n, (h n).cont = true) →
    (∀ n, (h n).keyPress = none) → s.scheduler = .iterating → s.execState = .waitingForKey r →
    ∃ k t, Sys2Proof.core.run k { s with inputs := hostInputs h 0 k } = .next t ∧ t.dt = 0 ∧ t.st = 0 ∧
      t = { s with dt := t.dt, st := t.st, out := t.out, inputs := t.inputs, tick := t.tick }
end

