-- ==== Sys2Proof/Laws/Memory.lean ====
section
/-! SUPPORT. The laws of memory: every operation keeps the canonical form, a read after a write, the
reading of a written block, and what the range check answers. -/

namespace Sys2Proof.Laws
open Sys2Proof Sys2Proof.Machine

variable {m : Memory} {a c k : Nat} {b : Byte} {bs : List Byte}

theorem wf_nil : Memory.wf [] := by simp [Memory.wf]

/-- The tail of a canonical memory is canonical, and its addresses lie above the head's. -/
theorem wf_cons {e : Host.Cell} :
    Memory.wf (e :: m) ↔
      (∀ d ∈ m, e.1 < d.1) ∧ e.1 < Config.memSize ∧ e.2 ≠ Memory.unlisted e.1 ∧ Memory.wf m := by
  simp [Memory.wf, List.pairwise_cons]; grind

/-! ## Reads -/

/-- An address below every listed one reads as unlisted. -/
theorem read_of_lt (h : ∀ d ∈ m, a < d.1) : Memory.read m a = Memory.unlisted a := by
  induction m with
  | nil => rfl
  | cons e m ih =>
    simp only [List.mem_cons, forall_eq_or_imp] at h
    simp [Memory.read, Nat.ne_of_lt h.1, ih h.2]

theorem read_insert : Memory.read (Memory.insert m a b) c = if c = a then b else Memory.read m c := by
  induction m with
  | nil => simp [Memory.insert, Memory.read]
  | cons e m ih => simp only [Memory.insert]; split_ifs <;> simp [Memory.read] <;> grind

theorem read_erase (h : Memory.wf m) :
    Memory.read (Memory.erase m a) c = if c = a then Memory.unlisted a else Memory.read m c := by
  induction m with
  | nil => simp only [Memory.erase, Memory.read]; grind
  | cons e m ih =>
    obtain ⟨hlt, -, -, hm⟩ := wf_cons.1 h
    have tail := ih hm
    by_cases h1 : a = e.1
    · have : Memory.erase (e :: m) a = m := by simp [Memory.erase, h1]
      rw [this]
      split_ifs with h2
      · rw [h2]; exact read_of_lt (h1 ▸ hlt)
      · simp [Memory.read, show c ≠ e.1 from h1 ▸ h2]
    · have : Memory.erase (e :: m) a = e :: Memory.erase m a := by simp [Memory.erase, h1]
      rw [this]
      simp only [Memory.read, tail]
      grind

/-- A read after a write (R240). -/
theorem read_write (h : Memory.wf m) (ha : a < Config.memSize) :
    Memory.read (Memory.write m a b) c = if c = a then b else Memory.read m c := by
  unfold Memory.write
  rw [if_pos ha]
  split_ifs with hb hc hc
  · rw [read_erase h, if_pos hc, hb]
  · rw [read_erase h, if_neg hc]
  · rw [read_insert, if_pos hc]
  · rw [read_insert, if_neg hc]

/-! ## The canonical form -/

theorem insert_keys {e : Host.Cell} (h : e ∈ Memory.insert m a b) : e = (a, b) ∨ e ∈ m := by
  induction m with
  | nil => simpa [Memory.insert] using h
  | cons f m ih => simp only [Memory.insert] at h; split_ifs at h <;> simp at h ⊢ <;> grind

theorem wf_insert (h : Memory.wf m) (ha : a < Config.memSize) (hb : b ≠ Memory.unlisted a) :
    Memory.wf (Memory.insert m a b) := by
  induction m with
  | nil => simpa [Memory.insert, Memory.wf] using ⟨ha, hb⟩
  | cons e m ih =>
    obtain ⟨hlt, he, hne, hm⟩ := wf_cons.1 h
    simp only [Memory.insert]
    split_ifs with h1 h2
    · refine wf_cons.2 ⟨?_, ha, hb, h⟩
      intro d hd
      rcases List.mem_cons.1 hd with rfl | hd
      · exact h1
      · exact Nat.lt_trans h1 (hlt d hd)
    · exact wf_cons.2 ⟨by simpa [h2] using hlt, ha, hb, hm⟩
    · refine wf_cons.2 ⟨?_, he, hne, ih hm⟩
      intro d hd
      rcases insert_keys hd with rfl | hd
      · show e.1 < a; omega
      · exact hlt d hd

theorem erase_sublist : (Memory.erase m a).Sublist m := by
  induction m with
  | nil => simp [Memory.erase]
  | cons e m ih => simp only [Memory.erase]; split_ifs <;> simp [ih]

theorem wf_erase (h : Memory.wf m) : Memory.wf (Memory.erase m a) :=
  ⟨h.1.sublist erase_sublist, fun c hc => h.2 c (erase_sublist.subset hc)⟩

/-- A write keeps the canonical form. -/
theorem wf_write (h : Memory.wf m) : Memory.wf (Memory.write m a b) := by
  unfold Memory.write
  split_ifs with ha hb
  · exact wf_erase h
  · exact wf_insert h ha hb
  · exact h

/-- A block write keeps the canonical form. -/
theorem wf_writeBytes (h : Memory.wf m) : Memory.wf (Memory.writeBytes m a bs) := by
  induction bs generalizing m a with
  | nil => exact h
  | cons b bs ih => exact ih (wf_write h)

/-- Canonical memories that read alike are equal. -/
theorem memory_ext {m n : Memory} (hm : Memory.wf m) (hn : Memory.wf n)
    (h : ∀ a, Memory.read m a = Memory.read n a) : m = n := by
  induction m generalizing n with
  | nil =>
    cases n with
    | nil => rfl
    | cons f n =>
      obtain ⟨-, -, hne, -⟩ := wf_cons.1 hn
      exact absurd (by simpa [Memory.read] using (h f.1).symm) hne
  | cons e m ih =>
    obtain ⟨elt, -, ene, em⟩ := wf_cons.1 hm
    cases n with
    | nil => exact absurd (by simpa [Memory.read] using h e.1) ene
    | cons f n =>
      obtain ⟨flt, -, fne, fn⟩ := wf_cons.1 hn
      have key : e.1 = f.1 := by
        rcases Nat.lt_trichotomy e.1 f.1 with hlt | heq | hgt
        · have : Memory.read (f :: n) e.1 = Memory.unlisted e.1 :=
            read_of_lt (by simpa using ⟨hlt, fun d b hd => Nat.lt_trans hlt (flt (d, b) hd)⟩)
          exact absurd (by rw [← this, ← h e.1]; simp [Memory.read]) ene
        · exact heq
        · have : Memory.read (e :: m) f.1 = Memory.unlisted f.1 :=
            read_of_lt (by simpa using ⟨hgt, fun d b hd => Nat.lt_trans hgt (elt (d, b) hd)⟩)
          exact absurd (by rw [← this, h f.1]; simp [Memory.read]) fne
      have hb : e.2 = f.2 := by have := h e.1; simpa [Memory.read, key] using this
      have hef : e = f := Prod.ext key hb
      subst hef
      refine congrArg (e :: ·) (ih em fn fun a => ?_)
      by_cases ha : a = e.1
      · subst ha; rw [read_of_lt elt, read_of_lt flt]
      · have := h a; simpa [Memory.read, ha] using this

/-- Reading a written block: the block's bytes inside, the old bytes outside (R233). -/
theorem read_writeBytes (h : Memory.wf m) (hr : a + bs.length ≤ Config.memSize) :
    Memory.read (Memory.writeBytes m a bs) c =
      if a ≤ c ∧ c < a + bs.length then bs.getD (c - a) 0#8 else Memory.read m c := by
  induction bs generalizing m a with
  | nil => rw [if_neg (by simp)]; rfl
  | cons b bs ih =>
    simp only [List.length_cons] at hr
    have ha : a < Config.memSize := by omega
    rw [Memory.writeBytes, ih (wf_write h) (by omega), read_write h ha]
    rcases Nat.lt_trichotomy c a with hc | hc | hc
    · rw [if_neg (by omega), if_neg (by omega), if_neg (by simp; omega)]
    · subst hc; rw [if_neg (by omega), if_pos rfl, if_pos (by simp)]; simp
    · by_cases hlt : c < a + 1 + bs.length
      · rw [if_pos (by omega), if_pos (by simp; omega), show c - a = (c - (a + 1)) + 1 by omega]; rfl
      · rw [if_neg (by omega), if_neg (by omega), if_neg (by simp; omega)]

/-! ## The range check (R230, R231) -/

theorem checkRange_none (h : k = 0 ∨ a + k ≤ 4096) : checkRange a k = none := by
  simp [checkRange, List.find?_eq_none, List.mem_range'_1, Config.memSize]; omega

theorem checkRange_some (hk : 0 < k) (h : 4096 < a + k) : checkRange a k = some (max a 4096) := by
  induction k generalizing a with
  | zero => omega
  | succ k ih =>
    unfold checkRange at ih ⊢
    rw [List.range'_succ, List.find?_cons]
    by_cases ha : 4096 ≤ a
    · simp [Config.memSize, ha]
    · have h0 : 0 < k := by omega
      simp only [Config.memSize, ha, decide_false]
      rw [ih h0 (by omega)]
      congr 1; omega

end Sys2Proof.Laws
end

