-- ==== Sys2Proof/Laws/Boot.lean ====
section
/-! SUPPORT. What reset answers, and what memory reads as after it. -/

namespace Sys2Proof.Laws

open Sys2Proof.Machine

variable {font : Vector Byte 80} {image : List Byte} {params : Params} {now : Nat} {ins : List HostInput}

/-- Above the font, the reset contents with an empty image are 0. -/
theorem unlisted_above_font {a : Nat} (h : 80 ≤ a) : Memory.unlisted a = 0#8 := by
  have length : defaultFont.length = 80 := by decide
  simp [Memory.unlisted, List.getD_eq_getElem?_getD,
    List.getElem?_eq_none (l := defaultFont) (i := a) (by omega)]

theorem wf_bootMemory : Memory.wf (bootMemory font image) := wf_writeBytes (wf_writeBytes wf_nil)

/-- R703: the image at 0x200, the font at 0x000, and 0 everywhere else. -/
theorem read_bootMemory (h : image.length ≤ 3584) (a : Nat) :
    Memory.read (bootMemory font image) a =
      if 0x200 ≤ a ∧ a < 0x200 + image.length then image.getD (a - 0x200) 0#8
      else if a < 80 then font.toList.getD a 0#8 else 0#8 := by
  unfold bootMemory
  rw [read_writeBytes (wf_writeBytes wf_nil) (by simp [Config.progBase, Config.memSize]; omega),
    read_writeBytes wf_nil (by simp [Config.fontBase, Config.memSize])]
  simp only [Config.progBase, Config.fontBase, Vector.length_toList]
  split_ifs <;> first | rfl | omega | exact unlisted_above_font (by omega)

/-- The state after an accepted reset. -/
def booted (font : Vector Byte 80) (image : List Byte) (params : Params) (now : Nat)
    (ins : List HostInput) : State :=
  { State.reset with
    mem := bootMemory font image, tInstr := now, tTimer := now, params := params, inputs := ins }

theorem boot_ok (h : image.length ≤ 3584) :
    boot font image params now ins = .next (booted font image params now ins) :=
  if_pos (by simpa [imageWellFormed] using h)

theorem boot_refused (h : 3584 < image.length) :
    boot font image params now ins = .refused (.imageTooLong image.length) :=
  if_neg (by simpa [imageWellFormed] using h)

end Sys2Proof.Laws
end

