-- ==== Sys2Proof/Laws/Decode.lean ====
section
/-! SUPPORT. The small lemmas of the decoder and the encoder: a field read from an encoded word is the
operand, a word is the encoding of its fields, and a field is not changed by a mask that keeps it. -/

namespace Sys2Proof.Laws
open Sys2Proof

/-- No ill-formed instruction can be written. -/
theorem wellFormed_all (i : Instr) : i.wellFormed = true := by
  cases i <;> simp [Instr.wellFormed, fitsNibble, fitsByte, fitsAddr12] <;> omega

@[simp] theorem indexOf_nibbleOf (x : Fin 16) : indexOf (nibbleOf x) = x := rfl
@[simp] theorem nibbleOf_indexOf (n : Nibble) : nibbleOf (indexOf n) = n := rfl

/-! ## Fields of an encoded word -/

@[simp] theorem nib0_encXYN (a : Nibble) (x y : RegIx) (d : Nibble) : nib0 (encXYN a x y d) = a := by
  unfold nib0 encXYN; ext i hi; simp; grind
@[simp] theorem nib3_encXYN (a : Nibble) (x y : RegIx) (d : Nibble) : nib3 (encXYN a x y d) = d := by
  unfold nib3 encXYN; ext i hi; simp; grind
@[simp] theorem fieldX_encXYN (a : Nibble) (x y : RegIx) (d : Nibble) : fieldX (encXYN a x y d) = x := by
  have : nib1 (encXYN a x y d) = nibbleOf x := by
    unfold nib1 encXYN; ext i hi; simp; grind
  simp [fieldX, this]
@[simp] theorem fieldY_encXYN (a : Nibble) (x y : RegIx) (d : Nibble) : fieldY (encXYN a x y d) = y := by
  have : nib2 (encXYN a x y d) = nibbleOf y := by
    unfold nib2 encXYN; ext i hi; simp; grind
  simp [fieldY, this]
@[simp] theorem fieldN_encXYN (a : Nibble) (x y : RegIx) (n : Fin 16) :
    fieldN (encXYN a x y (nibbleOf n)) = n := by
  simp [fieldN]
@[simp] theorem nib0_encXKK (a : Nibble) (x : RegIx) (kk : Byte) : nib0 (encXKK a x kk) = a := by
  unfold nib0 encXKK; ext i hi; simp; grind
@[simp] theorem fieldX_encXKK (a : Nibble) (x : RegIx) (kk : Byte) : fieldX (encXKK a x kk) = x := by
  have : nib1 (encXKK a x kk) = nibbleOf x := by
    unfold nib1 encXKK; ext i hi; simp; grind
  simp [fieldX, this]
@[simp] theorem fieldKK_encXKK (a : Nibble) (x : RegIx) (kk : Byte) : fieldKK (encXKK a x kk) = kk := by
  unfold fieldKK encXKK; ext i hi; simp; grind
@[simp] theorem nib0_encNNN (a : Nibble) (nnn : Addr12) : nib0 (encNNN a nnn) = a := by
  unfold nib0 encNNN; ext i hi; simp; grind
@[simp] theorem fieldNNN_encNNN (a : Nibble) (nnn : Addr12) : fieldNNN (encNNN a nnn) = nnn := by
  unfold fieldNNN encNNN; ext i hi; simp; grind

/-! ## A word is the encoding of its fields -/

theorem encXYN_fields (w : Word) : encXYN (nib0 w) (fieldX w) (fieldY w) (nib3 w) = w := by
  unfold encXYN nib0 fieldX fieldY nib3 nib1 nib2; ext i hi; simp; grind
theorem encXKK_fields (w : Word) : encXKK (nib0 w) (fieldX w) (fieldKK w) = w := by
  unfold encXKK nib0 fieldX fieldKK nib1; ext i hi; simp; grind
theorem encNNN_fields (w : Word) : encNNN (nib0 w) (fieldNNN w) = w := by
  unfold encNNN nib0 fieldNNN; ext i hi; simp; grind

/-! ## What a mask keeps -/

/-- Every mask of R310 keeps n0. -/
theorem nib0_of_and_F000 {w p : Word} (h : w &&& 0xF000#16 = p) : nib0 w = nib0 p := by
  subst h; unfold nib0; ext i hi
  obtain rfl | rfl | rfl | rfl : i = 0 ∨ i = 1 ∨ i = 2 ∨ i = 3 := by omega
  all_goals simp
/-- The mask 0xF00F keeps n0 and n3. -/
theorem nibs_of_and_F00F {w p : Word} (h : w &&& 0xF00F#16 = p) : nib0 w = nib0 p ∧ nib3 w = nib3 p := by
  subst h; unfold nib0 nib3
  constructor
  all_goals
    ext i hi
    obtain rfl | rfl | rfl | rfl : i = 0 ∨ i = 1 ∨ i = 2 ∨ i = 3 := by omega
    all_goals simp
/-- The mask 0xF0FF keeps n0 and kk. -/
theorem nib0_kk_of_and_F0FF {w p : Word} (h : w &&& 0xF0FF#16 = p) :
    nib0 w = nib0 p ∧ fieldKK w = fieldKK p := by
  subst h; unfold nib0 fieldKK
  constructor
  · ext i hi
    obtain rfl | rfl | rfl | rfl : i = 0 ∨ i = 1 ∨ i = 2 ∨ i = 3 := by omega
    all_goals simp
  · ext i hi
    obtain rfl | rfl | rfl | rfl | rfl | rfl | rfl | rfl :
      i = 0 ∨ i = 1 ∨ i = 2 ∨ i = 3 ∨ i = 4 ∨ i = 5 ∨ i = 6 ∨ i = 7 := by omega
    all_goals simp

/-! ## A masked word, by its fields -/

theorem and_F000 (w : Word) : w &&& 0xF000#16 = encNNN (nib0 w) 0#12 := by
  have h : fieldNNN (w &&& 0xF000#16) = 0#12 := by
    unfold fieldNNN; ext i hi
    obtain rfl | rfl | rfl | rfl | rfl | rfl | rfl | rfl | rfl | rfl | rfl | rfl :
      i = 0 ∨ i = 1 ∨ i = 2 ∨ i = 3 ∨ i = 4 ∨ i = 5 ∨ i = 6 ∨ i = 7 ∨ i = 8 ∨ i = 9 ∨ i = 10 ∨ i = 11 := by
        omega
    all_goals simp
  rw [← encNNN_fields (w &&& 0xF000#16), h, ← nib0_of_and_F000 rfl]
theorem and_F00F (w : Word) : w &&& 0xF00F#16 = encXYN (nib0 w) 0 0 (nib3 w) := by
  have hx : fieldX (w &&& 0xF00F#16) = 0 := by
    have : nib1 (w &&& 0xF00F#16) = 0#4 := by
      unfold nib1; ext i hi
      obtain rfl | rfl | rfl | rfl : i = 0 ∨ i = 1 ∨ i = 2 ∨ i = 3 := by omega
      all_goals simp
    rw [fieldX, this]; rfl
  have hy : fieldY (w &&& 0xF00F#16) = 0 := by
    have : nib2 (w &&& 0xF00F#16) = 0#4 := by
      unfold nib2; ext i hi
      obtain rfl | rfl | rfl | rfl : i = 0 ∨ i = 1 ∨ i = 2 ∨ i = 3 := by omega
      all_goals simp
    rw [fieldY, this]; rfl
  rw [← encXYN_fields (w &&& 0xF00F#16), hx, hy, ← (nibs_of_and_F00F rfl).1, ← (nibs_of_and_F00F rfl).2]
theorem and_F0FF (w : Word) : w &&& 0xF0FF#16 = encXKK (nib0 w) 0 (fieldKK w) := by
  have hx : fieldX (w &&& 0xF0FF#16) = 0 := by
    have : nib1 (w &&& 0xF0FF#16) = 0#4 := by
      unfold nib1; ext i hi
      obtain rfl | rfl | rfl | rfl : i = 0 ∨ i = 1 ∨ i = 2 ∨ i = 3 := by omega
      all_goals simp
    rw [fieldX, this]; rfl
  rw [← encXKK_fields (w &&& 0xF0FF#16), hx, ← (nib0_kk_of_and_F0FF rfl).1, ← (nib0_kk_of_and_F0FF rfl).2]

/-! ## The decoder's answers -/

/-- The only class without an arm of its own. -/
theorem nib0_eq_zero {z : Nibble} (h1 : z ≠ 1) (h2 : z ≠ 2) (h3 : z ≠ 3) (h4 : z ≠ 4) (h5 : z ≠ 5)
    (h6 : z ≠ 6) (h7 : z ≠ 7) (h8 : z ≠ 8) (h9 : z ≠ 9) (hA : z ≠ 10) (hB : z ≠ 11) (hC : z ≠ 12)
    (hD : z ≠ 13) (hE : z ≠ 14) (hF : z ≠ 15) : z = 0 := by
  have all : ∀ z : Nibble, z = 0 ∨ z = 1 ∨ z = 2 ∨ z = 3 ∨ z = 4 ∨ z = 5 ∨ z = 6 ∨ z = 7 ∨ z = 8 ∨
    z = 9 ∨ z = 10 ∨ z = 11 ∨ z = 12 ∨ z = 13 ∨ z = 14 ∨ z = 15 := by decide
  have := all z
  tauto

/-- The decoder has two answers: an instruction, or that the word itself is unrecognized. -/
theorem decodeWord_total (w : Word) :
    (∃ i, decodeWord w = .ok i) ∨ decodeWord w = .error (.unrecognized w) := by
  unfold decodeWord decodeAlu decodeMisc
  repeat' split
  all_goals first | exact .inr rfl | exact .inl ⟨_, rfl⟩

/-! ## Bytes and words -/

@[simp] theorem hiByte_wordOfBytes (h l : Byte) : hiByte (wordOfBytes h l) = h := by
  unfold hiByte wordOfBytes; ext i hi; simp; grind
@[simp] theorem loByte_wordOfBytes (h l : Byte) : loByte (wordOfBytes h l) = l := by
  unfold loByte wordOfBytes; ext i hi; simp; grind
@[simp] theorem wordOfBytes_bytes (w : Word) : wordOfBytes (hiByte w) (loByte w) = w := by
  unfold wordOfBytes hiByte loByte; ext i hi; simp; grind

end Sys2Proof.Laws
end

