-- ==== Sys2Proof/Laws/State.lean ====
section
/-! SUPPORT. One lemma per field per update of the state, so that no proof unfolds a record update, and what
reading a register gives after each register write. -/

namespace Sys2Proof.Laws
open Sys2Proof Sys2Proof.Machine

variable (s : State)

/-! ### setV -/

@[simp] theorem setV_mem (x : RegIx) (b : Byte) : (setV s x b).mem = s.mem := rfl
@[simp] theorem setV_v (x : RegIx) (b : Byte) : (setV s x b).v = s.v.set x b := rfl
@[simp] theorem setV_i (x : RegIx) (b : Byte) : (setV s x b).i = s.i := rfl
@[simp] theorem setV_pc (x : RegIx) (b : Byte) : (setV s x b).pc = s.pc := rfl
@[simp] theorem setV_stack (x : RegIx) (b : Byte) : (setV s x b).stack = s.stack := rfl
@[simp] theorem setV_sp (x : RegIx) (b : Byte) : (setV s x b).sp = s.sp := rfl
@[simp] theorem setV_dt (x : RegIx) (b : Byte) : (setV s x b).dt = s.dt := rfl
@[simp] theorem setV_st (x : RegIx) (b : Byte) : (setV s x b).st = s.st := rfl
@[simp] theorem setV_disp (x : RegIx) (b : Byte) : (setV s x b).disp = s.disp := rfl
@[simp] theorem setV_execState (x : RegIx) (b : Byte) : (setV s x b).execState = s.execState := rfl
@[simp] theorem setV_fault (x : RegIx) (b : Byte) : (setV s x b).fault = s.fault := rfl
@[simp] theorem setV_tInstr (x : RegIx) (b : Byte) : (setV s x b).tInstr = s.tInstr := rfl
@[simp] theorem setV_tTimer (x : RegIx) (b : Byte) : (setV s x b).tTimer = s.tTimer := rfl
@[simp] theorem setV_params (x : RegIx) (b : Byte) : (setV s x b).params = s.params := rfl
@[simp] theorem setV_scheduler (x : RegIx) (b : Byte) : (setV s x b).scheduler = s.scheduler := rfl
@[simp] theorem setV_inputs (x : RegIx) (b : Byte) : (setV s x b).inputs = s.inputs := rfl
@[simp] theorem setV_tick (x : RegIx) (b : Byte) : (setV s x b).tick = s.tick := rfl
@[simp] theorem setV_out (x : RegIx) (b : Byte) : (setV s x b).out = s.out := rfl
@[simp] theorem setV_inputNow (x : RegIx) (b : Byte) : inputNow (setV s x b) = inputNow s := rfl

/-! ### setI -/

@[simp] theorem setI_mem (a : Word) : (setI s a).mem = s.mem := rfl
@[simp] theorem setI_v (a : Word) : (setI s a).v = s.v := rfl
@[simp] theorem setI_i (a : Word) : (setI s a).i = a := rfl
@[simp] theorem setI_pc (a : Word) : (setI s a).pc = s.pc := rfl
@[simp] theorem setI_stack (a : Word) : (setI s a).stack = s.stack := rfl
@[simp] theorem setI_sp (a : Word) : (setI s a).sp = s.sp := rfl
@[simp] theorem setI_dt (a : Word) : (setI s a).dt = s.dt := rfl
@[simp] theorem setI_st (a : Word) : (setI s a).st = s.st := rfl
@[simp] theorem setI_disp (a : Word) : (setI s a).disp = s.disp := rfl
@[simp] theorem setI_execState (a : Word) : (setI s a).execState = s.execState := rfl
@[simp] theorem setI_fault (a : Word) : (setI s a).fault = s.fault := rfl
@[simp] theorem setI_tInstr (a : Word) : (setI s a).tInstr = s.tInstr := rfl
@[simp] theorem setI_tTimer (a : Word) : (setI s a).tTimer = s.tTimer := rfl
@[simp] theorem setI_params (a : Word) : (setI s a).params = s.params := rfl
@[simp] theorem setI_scheduler (a : Word) : (setI s a).scheduler = s.scheduler := rfl
@[simp] theorem setI_inputs (a : Word) : (setI s a).inputs = s.inputs := rfl
@[simp] theorem setI_tick (a : Word) : (setI s a).tick = s.tick := rfl
@[simp] theorem setI_out (a : Word) : (setI s a).out = s.out := rfl
@[simp] theorem setI_inputNow (a : Word) : inputNow (setI s a) = inputNow s := rfl
@[simp] theorem setI_getV (a : Word) (j : RegIx) : getV (setI s a) j = getV s j := rfl

/-! ### setPc -/

@[simp] theorem setPc_mem (a : Word) : (setPc s a).mem = s.mem := rfl
@[simp] theorem setPc_v (a : Word) : (setPc s a).v = s.v := rfl
@[simp] theorem setPc_i (a : Word) : (setPc s a).i = s.i := rfl
@[simp] theorem setPc_pc (a : Word) : (setPc s a).pc = a := rfl
@[simp] theorem setPc_stack (a : Word) : (setPc s a).stack = s.stack := rfl
@[simp] theorem setPc_sp (a : Word) : (setPc s a).sp = s.sp := rfl
@[simp] theorem setPc_dt (a : Word) : (setPc s a).dt = s.dt := rfl
@[simp] theorem setPc_st (a : Word) : (setPc s a).st = s.st := rfl
@[simp] theorem setPc_disp (a : Word) : (setPc s a).disp = s.disp := rfl
@[simp] theorem setPc_execState (a : Word) : (setPc s a).execState = s.execState := rfl
@[simp] theorem setPc_fault (a : Word) : (setPc s a).fault = s.fault := rfl
@[simp] theorem setPc_tInstr (a : Word) : (setPc s a).tInstr = s.tInstr := rfl
@[simp] theorem setPc_tTimer (a : Word) : (setPc s a).tTimer = s.tTimer := rfl
@[simp] theorem setPc_params (a : Word) : (setPc s a).params = s.params := rfl
@[simp] theorem setPc_scheduler (a : Word) : (setPc s a).scheduler = s.scheduler := rfl
@[simp] theorem setPc_inputs (a : Word) : (setPc s a).inputs = s.inputs := rfl
@[simp] theorem setPc_tick (a : Word) : (setPc s a).tick = s.tick := rfl
@[simp] theorem setPc_out (a : Word) : (setPc s a).out = s.out := rfl
@[simp] theorem setPc_inputNow (a : Word) : inputNow (setPc s a) = inputNow s := rfl
@[simp] theorem setPc_getV (a : Word) (j : RegIx) : getV (setPc s a) j = getV s j := rfl

/-! ### setDt -/

@[simp] theorem setDt_mem (b : Byte) : (setDt s b).mem = s.mem := rfl
@[simp] theorem setDt_v (b : Byte) : (setDt s b).v = s.v := rfl
@[simp] theorem setDt_i (b : Byte) : (setDt s b).i = s.i := rfl
@[simp] theorem setDt_pc (b : Byte) : (setDt s b).pc = s.pc := rfl
@[simp] theorem setDt_stack (b : Byte) : (setDt s b).stack = s.stack := rfl
@[simp] theorem setDt_sp (b : Byte) : (setDt s b).sp = s.sp := rfl
@[simp] theorem setDt_dt (b : Byte) : (setDt s b).dt = b := rfl
@[simp] theorem setDt_st (b : Byte) : (setDt s b).st = s.st := rfl
@[simp] theorem setDt_disp (b : Byte) : (setDt s b).disp = s.disp := rfl
@[simp] theorem setDt_execState (b : Byte) : (setDt s b).execState = s.execState := rfl
@[simp] theorem setDt_fault (b : Byte) : (setDt s b).fault = s.fault := rfl
@[simp] theorem setDt_tInstr (b : Byte) : (setDt s b).tInstr = s.tInstr := rfl
@[simp] theorem setDt_tTimer (b : Byte) : (setDt s b).tTimer = s.tTimer := rfl
@[simp] theorem setDt_params (b : Byte) : (setDt s b).params = s.params := rfl
@[simp] theorem setDt_scheduler (b : Byte) : (setDt s b).scheduler = s.scheduler := rfl
@[simp] theorem setDt_inputs (b : Byte) : (setDt s b).inputs = s.inputs := rfl
@[simp] theorem setDt_tick (b : Byte) : (setDt s b).tick = s.tick := rfl
@[simp] theorem setDt_out (b : Byte) : (setDt s b).out = s.out := rfl
@[simp] theorem setDt_inputNow (b : Byte) : inputNow (setDt s b) = inputNow s := rfl
@[simp] theorem setDt_getV (b : Byte) (j : RegIx) : getV (setDt s b) j = getV s j := rfl

/-! ### setSt -/

@[simp] theorem setSt_mem (b : Byte) : (setSt s b).mem = s.mem := rfl
@[simp] theorem setSt_v (b : Byte) : (setSt s b).v = s.v := rfl
@[simp] theorem setSt_i (b : Byte) : (setSt s b).i = s.i := rfl
@[simp] theorem setSt_pc (b : Byte) : (setSt s b).pc = s.pc := rfl
@[simp] theorem setSt_stack (b : Byte) : (setSt s b).stack = s.stack := rfl
@[simp] theorem setSt_sp (b : Byte) : (setSt s b).sp = s.sp := rfl
@[simp] theorem setSt_dt (b : Byte) : (setSt s b).dt = s.dt := rfl
@[simp] theorem setSt_st (b : Byte) : (setSt s b).st = b := rfl
@[simp] theorem setSt_disp (b : Byte) : (setSt s b).disp = s.disp := rfl
@[simp] theorem setSt_execState (b : Byte) : (setSt s b).execState = s.execState := rfl
@[simp] theorem setSt_fault (b : Byte) : (setSt s b).fault = s.fault := rfl
@[simp] theorem setSt_tInstr (b : Byte) : (setSt s b).tInstr = s.tInstr := rfl
@[simp] theorem setSt_tTimer (b : Byte) : (setSt s b).tTimer = s.tTimer := rfl
@[simp] theorem setSt_params (b : Byte) : (setSt s b).params = s.params := rfl
@[simp] theorem setSt_scheduler (b : Byte) : (setSt s b).scheduler = s.scheduler := rfl
@[simp] theorem setSt_inputs (b : Byte) : (setSt s b).inputs = s.inputs := rfl
@[simp] theorem setSt_tick (b : Byte) : (setSt s b).tick = s.tick := rfl
@[simp] theorem setSt_out (b : Byte) : (setSt s b).out = s.out := rfl
@[simp] theorem setSt_inputNow (b : Byte) : inputNow (setSt s b) = inputNow s := rfl
@[simp] theorem setSt_getV (b : Byte) (j : RegIx) : getV (setSt s b) j = getV s j := rfl

/-! ### setDisp -/

@[simp] theorem setDisp_mem (d : Display) : (setDisp s d).mem = s.mem := rfl
@[simp] theorem setDisp_v (d : Display) : (setDisp s d).v = s.v := rfl
@[simp] theorem setDisp_i (d : Display) : (setDisp s d).i = s.i := rfl
@[simp] theorem setDisp_pc (d : Display) : (setDisp s d).pc = s.pc := rfl
@[simp] theorem setDisp_stack (d : Display) : (setDisp s d).stack = s.stack := rfl
@[simp] theorem setDisp_sp (d : Display) : (setDisp s d).sp = s.sp := rfl
@[simp] theorem setDisp_dt (d : Display) : (setDisp s d).dt = s.dt := rfl
@[simp] theorem setDisp_st (d : Display) : (setDisp s d).st = s.st := rfl
@[simp] theorem setDisp_disp (d : Display) : (setDisp s d).disp = d := rfl
@[simp] theorem setDisp_execState (d : Display) : (setDisp s d).execState = s.execState := rfl
@[simp] theorem setDisp_fault (d : Display) : (setDisp s d).fault = s.fault := rfl
@[simp] theorem setDisp_tInstr (d : Display) : (setDisp s d).tInstr = s.tInstr := rfl
@[simp] theorem setDisp_tTimer (d : Display) : (setDisp s d).tTimer = s.tTimer := rfl
@[simp] theorem setDisp_params (d : Display) : (setDisp s d).params = s.params := rfl
@[simp] theorem setDisp_scheduler (d : Display) : (setDisp s d).scheduler = s.scheduler := rfl
@[simp] theorem setDisp_inputs (d : Display) : (setDisp s d).inputs = s.inputs := rfl
@[simp] theorem setDisp_tick (d : Display) : (setDisp s d).tick = s.tick := rfl
@[simp] theorem setDisp_out (d : Display) : (setDisp s d).out = s.out := rfl
@[simp] theorem setDisp_inputNow (d : Display) : inputNow (setDisp s d) = inputNow s := rfl
@[simp] theorem setDisp_getV (d : Display) (j : RegIx) : getV (setDisp s d) j = getV s j := rfl

/-! ### setMem -/

@[simp] theorem setMem_mem (m : Memory) : (setMem s m).mem = m := rfl
@[simp] theorem setMem_v (m : Memory) : (setMem s m).v = s.v := rfl
@[simp] theorem setMem_i (m : Memory) : (setMem s m).i = s.i := rfl
@[simp] theorem setMem_pc (m : Memory) : (setMem s m).pc = s.pc := rfl
@[simp] theorem setMem_stack (m : Memory) : (setMem s m).stack = s.stack := rfl
@[simp] theorem setMem_sp (m : Memory) : (setMem s m).sp = s.sp := rfl
@[simp] theorem setMem_dt (m : Memory) : (setMem s m).dt = s.dt := rfl
@[simp] theorem setMem_st (m : Memory) : (setMem s m).st = s.st := rfl
@[simp] theorem setMem_disp (m : Memory) : (setMem s m).disp = s.disp := rfl
@[simp] theorem setMem_execState (m : Memory) : (setMem s m).execState = s.execState := rfl
@[simp] theorem setMem_fault (m : Memory) : (setMem s m).fault = s.fault := rfl
@[simp] theorem setMem_tInstr (m : Memory) : (setMem s m).tInstr = s.tInstr := rfl
@[simp] theorem setMem_tTimer (m : Memory) : (setMem s m).tTimer = s.tTimer := rfl
@[simp] theorem setMem_params (m : Memory) : (setMem s m).params = s.params := rfl
@[simp] theorem setMem_scheduler (m : Memory) : (setMem s m).scheduler = s.scheduler := rfl
@[simp] theorem setMem_inputs (m : Memory) : (setMem s m).inputs = s.inputs := rfl
@[simp] theorem setMem_tick (m : Memory) : (setMem s m).tick = s.tick := rfl
@[simp] theorem setMem_out (m : Memory) : (setMem s m).out = s.out := rfl
@[simp] theorem setMem_inputNow (m : Memory) : inputNow (setMem s m) = inputNow s := rfl
@[simp] theorem setMem_getV (m : Memory) (j : RegIx) : getV (setMem s m) j = getV s j := rfl

/-! ### setExec -/

@[simp] theorem setExec_mem (e : ExecState) : (setExec s e).mem = s.mem := rfl
@[simp] theorem setExec_v (e : ExecState) : (setExec s e).v = s.v := rfl
@[simp] theorem setExec_i (e : ExecState) : (setExec s e).i = s.i := rfl
@[simp] theorem setExec_pc (e : ExecState) : (setExec s e).pc = s.pc := rfl
@[simp] theorem setExec_stack (e : ExecState) : (setExec s e).stack = s.stack := rfl
@[simp] theorem setExec_sp (e : ExecState) : (setExec s e).sp = s.sp := rfl
@[simp] theorem setExec_dt (e : ExecState) : (setExec s e).dt = s.dt := rfl
@[simp] theorem setExec_st (e : ExecState) : (setExec s e).st = s.st := rfl
@[simp] theorem setExec_disp (e : ExecState) : (setExec s e).disp = s.disp := rfl
@[simp] theorem setExec_execState (e : ExecState) : (setExec s e).execState = e := rfl
@[simp] theorem setExec_fault (e : ExecState) : (setExec s e).fault = s.fault := rfl
@[simp] theorem setExec_tInstr (e : ExecState) : (setExec s e).tInstr = s.tInstr := rfl
@[simp] theorem setExec_tTimer (e : ExecState) : (setExec s e).tTimer = s.tTimer := rfl
@[simp] theorem setExec_params (e : ExecState) : (setExec s e).params = s.params := rfl
@[simp] theorem setExec_scheduler (e : ExecState) : (setExec s e).scheduler = s.scheduler := rfl
@[simp] theorem setExec_inputs (e : ExecState) : (setExec s e).inputs = s.inputs := rfl
@[simp] theorem setExec_tick (e : ExecState) : (setExec s e).tick = s.tick := rfl
@[simp] theorem setExec_out (e : ExecState) : (setExec s e).out = s.out := rfl
@[simp] theorem setExec_inputNow (e : ExecState) : inputNow (setExec s e) = inputNow s := rfl
@[simp] theorem setExec_getV (e : ExecState) (j : RegIx) : getV (setExec s e) j = getV s j := rfl

/-! ### advance -/

@[simp] theorem advance_mem : (advance s).mem = s.mem := rfl
@[simp] theorem advance_v : (advance s).v = s.v := rfl
@[simp] theorem advance_i : (advance s).i = s.i := rfl
@[simp] theorem advance_pc : (advance s).pc = s.pc + 2#16 := rfl
@[simp] theorem advance_stack : (advance s).stack = s.stack := rfl
@[simp] theorem advance_sp : (advance s).sp = s.sp := rfl
@[simp] theorem advance_dt : (advance s).dt = s.dt := rfl
@[simp] theorem advance_st : (advance s).st = s.st := rfl
@[simp] theorem advance_disp : (advance s).disp = s.disp := rfl
@[simp] theorem advance_execState : (advance s).execState = s.execState := rfl
@[simp] theorem advance_fault : (advance s).fault = s.fault := rfl
@[simp] theorem advance_tInstr : (advance s).tInstr = s.tInstr := rfl
@[simp] theorem advance_tTimer : (advance s).tTimer = s.tTimer := rfl
@[simp] theorem advance_params : (advance s).params = s.params := rfl
@[simp] theorem advance_scheduler : (advance s).scheduler = s.scheduler := rfl
@[simp] theorem advance_inputs : (advance s).inputs = s.inputs := rfl
@[simp] theorem advance_tick : (advance s).tick = s.tick := rfl
@[simp] theorem advance_out : (advance s).out = s.out := rfl
@[simp] theorem advance_inputNow : inputNow (advance s) = inputNow s := rfl
@[simp] theorem advance_getV (j : RegIx) : getV (advance s) j = getV s j := rfl

/-! ### clearOutputs -/

@[simp] theorem clearOutputs_mem : (clearOutputs s).mem = s.mem := rfl
@[simp] theorem clearOutputs_v : (clearOutputs s).v = s.v := rfl
@[simp] theorem clearOutputs_i : (clearOutputs s).i = s.i := rfl
@[simp] theorem clearOutputs_pc : (clearOutputs s).pc = s.pc := rfl
@[simp] theorem clearOutputs_stack : (clearOutputs s).stack = s.stack := rfl
@[simp] theorem clearOutputs_sp : (clearOutputs s).sp = s.sp := rfl
@[simp] theorem clearOutputs_dt : (clearOutputs s).dt = s.dt := rfl
@[simp] theorem clearOutputs_st : (clearOutputs s).st = s.st := rfl
@[simp] theorem clearOutputs_disp : (clearOutputs s).disp = s.disp := rfl
@[simp] theorem clearOutputs_execState : (clearOutputs s).execState = s.execState := rfl
@[simp] theorem clearOutputs_fault : (clearOutputs s).fault = s.fault := rfl
@[simp] theorem clearOutputs_tInstr : (clearOutputs s).tInstr = s.tInstr := rfl
@[simp] theorem clearOutputs_tTimer : (clearOutputs s).tTimer = s.tTimer := rfl
@[simp] theorem clearOutputs_params : (clearOutputs s).params = s.params := rfl
@[simp] theorem clearOutputs_scheduler : (clearOutputs s).scheduler = s.scheduler := rfl
@[simp] theorem clearOutputs_inputs : (clearOutputs s).inputs = s.inputs := rfl
@[simp] theorem clearOutputs_tick : (clearOutputs s).tick = s.tick := rfl
@[simp] theorem clearOutputs_out : (clearOutputs s).out = {} := rfl
@[simp] theorem clearOutputs_inputNow : inputNow (clearOutputs s) = inputNow s := rfl
@[simp] theorem clearOutputs_getV (j : RegIx) : getV (clearOutputs s) j = getV s j := rfl

/-! ### stopScheduler -/

@[simp] theorem stopScheduler_mem : (stopScheduler s).mem = s.mem := rfl
@[simp] theorem stopScheduler_v : (stopScheduler s).v = s.v := rfl
@[simp] theorem stopScheduler_i : (stopScheduler s).i = s.i := rfl
@[simp] theorem stopScheduler_pc : (stopScheduler s).pc = s.pc := rfl
@[simp] theorem stopScheduler_stack : (stopScheduler s).stack = s.stack := rfl
@[simp] theorem stopScheduler_sp : (stopScheduler s).sp = s.sp := rfl
@[simp] theorem stopScheduler_dt : (stopScheduler s).dt = s.dt := rfl
@[simp] theorem stopScheduler_st : (stopScheduler s).st = s.st := rfl
@[simp] theorem stopScheduler_disp : (stopScheduler s).disp = s.disp := rfl
@[simp] theorem stopScheduler_execState : (stopScheduler s).execState = s.execState := rfl
@[simp] theorem stopScheduler_fault : (stopScheduler s).fault = s.fault := rfl
@[simp] theorem stopScheduler_tInstr : (stopScheduler s).tInstr = s.tInstr := rfl
@[simp] theorem stopScheduler_tTimer : (stopScheduler s).tTimer = s.tTimer := rfl
@[simp] theorem stopScheduler_params : (stopScheduler s).params = s.params := rfl
@[simp] theorem stopScheduler_scheduler : (stopScheduler s).scheduler = .stopped := rfl
@[simp] theorem stopScheduler_inputs : (stopScheduler s).inputs = s.inputs := rfl
@[simp] theorem stopScheduler_tick : (stopScheduler s).tick = s.tick := rfl
@[simp] theorem stopScheduler_out : (stopScheduler s).out = s.out := rfl
@[simp] theorem stopScheduler_inputNow : inputNow (stopScheduler s) = inputNow s := rfl
@[simp] theorem stopScheduler_getV (j : RegIx) : getV (stopScheduler s) j = getV s j := rfl

/-! ### consumeInput -/

@[simp] theorem consumeInput_mem : (consumeInput s).mem = s.mem := rfl
@[simp] theorem consumeInput_v : (consumeInput s).v = s.v := rfl
@[simp] theorem consumeInput_i : (consumeInput s).i = s.i := rfl
@[simp] theorem consumeInput_pc : (consumeInput s).pc = s.pc := rfl
@[simp] theorem consumeInput_stack : (consumeInput s).stack = s.stack := rfl
@[simp] theorem consumeInput_sp : (consumeInput s).sp = s.sp := rfl
@[simp] theorem consumeInput_dt : (consumeInput s).dt = s.dt := rfl
@[simp] theorem consumeInput_st : (consumeInput s).st = s.st := rfl
@[simp] theorem consumeInput_disp : (consumeInput s).disp = s.disp := rfl
@[simp] theorem consumeInput_execState : (consumeInput s).execState = s.execState := rfl
@[simp] theorem consumeInput_fault : (consumeInput s).fault = s.fault := rfl
@[simp] theorem consumeInput_tInstr : (consumeInput s).tInstr = s.tInstr := rfl
@[simp] theorem consumeInput_tTimer : (consumeInput s).tTimer = s.tTimer := rfl
@[simp] theorem consumeInput_params : (consumeInput s).params = s.params := rfl
@[simp] theorem consumeInput_scheduler : (consumeInput s).scheduler = s.scheduler := rfl
@[simp] theorem consumeInput_inputs : (consumeInput s).inputs = s.inputs.tail := rfl
@[simp] theorem consumeInput_tick : (consumeInput s).tick = s.tick + 1 := rfl
@[simp] theorem consumeInput_out : (consumeInput s).out = s.out := rfl
@[simp] theorem consumeInput_getV (j : RegIx) : getV (consumeInput s) j = getV s j := rfl

/-! ### skipIf -/

@[simp] theorem skipIf_mem (c : Bool) : (skipIf c s).mem = s.mem := rfl
@[simp] theorem skipIf_v (c : Bool) : (skipIf c s).v = s.v := rfl
@[simp] theorem skipIf_i (c : Bool) : (skipIf c s).i = s.i := rfl
@[simp] theorem skipIf_pc (c : Bool) : (skipIf c s).pc = if c then s.pc + 2#16 else s.pc := rfl
@[simp] theorem skipIf_stack (c : Bool) : (skipIf c s).stack = s.stack := rfl
@[simp] theorem skipIf_sp (c : Bool) : (skipIf c s).sp = s.sp := rfl
@[simp] theorem skipIf_dt (c : Bool) : (skipIf c s).dt = s.dt := rfl
@[simp] theorem skipIf_st (c : Bool) : (skipIf c s).st = s.st := rfl
@[simp] theorem skipIf_disp (c : Bool) : (skipIf c s).disp = s.disp := rfl
@[simp] theorem skipIf_execState (c : Bool) : (skipIf c s).execState = s.execState := rfl
@[simp] theorem skipIf_fault (c : Bool) : (skipIf c s).fault = s.fault := rfl
@[simp] theorem skipIf_tInstr (c : Bool) : (skipIf c s).tInstr = s.tInstr := rfl
@[simp] theorem skipIf_tTimer (c : Bool) : (skipIf c s).tTimer = s.tTimer := rfl
@[simp] theorem skipIf_params (c : Bool) : (skipIf c s).params = s.params := rfl
@[simp] theorem skipIf_scheduler (c : Bool) : (skipIf c s).scheduler = s.scheduler := rfl
@[simp] theorem skipIf_inputs (c : Bool) : (skipIf c s).inputs = s.inputs := rfl
@[simp] theorem skipIf_tick (c : Bool) : (skipIf c s).tick = s.tick := rfl
@[simp] theorem skipIf_out (c : Bool) : (skipIf c s).out = s.out := rfl
@[simp] theorem skipIf_inputNow (c : Bool) : inputNow (skipIf c s) = inputNow s := rfl
@[simp] theorem skipIf_getV (c : Bool) (j : RegIx) : getV (skipIf c s) j = getV s j := rfl

/-! ### raiseAnomaly -/

@[simp] theorem raiseAnomaly_mem (a : Anomaly) : (raiseAnomaly a s).mem = s.mem := rfl
@[simp] theorem raiseAnomaly_v (a : Anomaly) : (raiseAnomaly a s).v = s.v := rfl
@[simp] theorem raiseAnomaly_i (a : Anomaly) : (raiseAnomaly a s).i = s.i := rfl
@[simp] theorem raiseAnomaly_pc (a : Anomaly) : (raiseAnomaly a s).pc = s.pc := rfl
@[simp] theorem raiseAnomaly_stack (a : Anomaly) : (raiseAnomaly a s).stack = s.stack := rfl
@[simp] theorem raiseAnomaly_sp (a : Anomaly) : (raiseAnomaly a s).sp = s.sp := rfl
@[simp] theorem raiseAnomaly_dt (a : Anomaly) : (raiseAnomaly a s).dt = s.dt := rfl
@[simp] theorem raiseAnomaly_st (a : Anomaly) : (raiseAnomaly a s).st = s.st := rfl
@[simp] theorem raiseAnomaly_disp (a : Anomaly) : (raiseAnomaly a s).disp = s.disp := rfl
@[simp] theorem raiseAnomaly_execState (a : Anomaly) : (raiseAnomaly a s).execState = s.execState := rfl
@[simp] theorem raiseAnomaly_fault (a : Anomaly) : (raiseAnomaly a s).fault = s.fault := rfl
@[simp] theorem raiseAnomaly_tInstr (a : Anomaly) : (raiseAnomaly a s).tInstr = s.tInstr := rfl
@[simp] theorem raiseAnomaly_tTimer (a : Anomaly) : (raiseAnomaly a s).tTimer = s.tTimer := rfl
@[simp] theorem raiseAnomaly_params (a : Anomaly) : (raiseAnomaly a s).params = s.params := rfl
@[simp] theorem raiseAnomaly_scheduler (a : Anomaly) : (raiseAnomaly a s).scheduler = s.scheduler := rfl
@[simp] theorem raiseAnomaly_inputs (a : Anomaly) : (raiseAnomaly a s).inputs = s.inputs := rfl
@[simp] theorem raiseAnomaly_tick (a : Anomaly) : (raiseAnomaly a s).tick = s.tick := rfl
@[simp] theorem raiseAnomaly_out (a : Anomaly) : (raiseAnomaly a s).out = { s.out with anomaly := some a } := rfl
@[simp] theorem raiseAnomaly_inputNow (a : Anomaly) : inputNow (raiseAnomaly a s) = inputNow s := rfl
@[simp] theorem raiseAnomaly_getV (a : Anomaly) (j : RegIx) : getV (raiseAnomaly a s) j = getV s j := rfl

/-! ### raiseFault -/

@[simp] theorem raiseFault_mem (code : FaultCode) (pc : Word) (word : Option Word) (addr : Option Nat) : (raiseFault code pc word addr s).mem = s.mem := rfl
@[simp] theorem raiseFault_v (code : FaultCode) (pc : Word) (word : Option Word) (addr : Option Nat) : (raiseFault code pc word addr s).v = s.v := rfl
@[simp] theorem raiseFault_i (code : FaultCode) (pc : Word) (word : Option Word) (addr : Option Nat) : (raiseFault code pc word addr s).i = s.i := rfl
@[simp] theorem raiseFault_pc (code : FaultCode) (pc : Word) (word : Option Word) (addr : Option Nat) : (raiseFault code pc word addr s).pc = s.pc := rfl
@[simp] theorem raiseFault_stack (code : FaultCode) (pc : Word) (word : Option Word) (addr : Option Nat) : (raiseFault code pc word addr s).stack = s.stack := rfl
@[simp] theorem raiseFault_sp (code : FaultCode) (pc : Word) (word : Option Word) (addr : Option Nat) : (raiseFault code pc word addr s).sp = s.sp := rfl
@[simp] theorem raiseFault_dt (code : FaultCode) (pc : Word) (word : Option Word) (addr : Option Nat) : (raiseFault code pc word addr s).dt = s.dt := rfl
@[simp] theorem raiseFault_st (code : FaultCode) (pc : Word) (word : Option Word) (addr : Option Nat) : (raiseFault code pc word addr s).st = s.st := rfl
@[simp] theorem raiseFault_disp (code : FaultCode) (pc : Word) (word : Option Word) (addr : Option Nat) : (raiseFault code pc word addr s).disp = s.disp := rfl
@[simp] theorem raiseFault_execState (code : FaultCode) (pc : Word) (word : Option Word) (addr : Option Nat) : (raiseFault code pc word addr s).execState = .halted := rfl
@[simp] theorem raiseFault_fault (code : FaultCode) (pc : Word) (word : Option Word) (addr : Option Nat) : (raiseFault code pc word addr s).fault = some ⟨code, pc, word, addr⟩ := rfl
@[simp] theorem raiseFault_tInstr (code : FaultCode) (pc : Word) (word : Option Word) (addr : Option Nat) : (raiseFault code pc word addr s).tInstr = s.tInstr := rfl
@[simp] theorem raiseFault_tTimer (code : FaultCode) (pc : Word) (word : Option Word) (addr : Option Nat) : (raiseFault code pc word addr s).tTimer = s.tTimer := rfl
@[simp] theorem raiseFault_params (code : FaultCode) (pc : Word) (word : Option Word) (addr : Option Nat) : (raiseFault code pc word addr s).params = s.params := rfl
@[simp] theorem raiseFault_scheduler (code : FaultCode) (pc : Word) (word : Option Word) (addr : Option Nat) : (raiseFault code pc word addr s).scheduler = s.scheduler := rfl
@[simp] theorem raiseFault_inputs (code : FaultCode) (pc : Word) (word : Option Word) (addr : Option Nat) : (raiseFault code pc word addr s).inputs = s.inputs := rfl
@[simp] theorem raiseFault_tick (code : FaultCode) (pc : Word) (word : Option Word) (addr : Option Nat) : (raiseFault code pc word addr s).tick = s.tick := rfl
@[simp] theorem raiseFault_out (code : FaultCode) (pc : Word) (word : Option Word) (addr : Option Nat) : (raiseFault code pc word addr s).out = s.out := rfl
@[simp] theorem raiseFault_inputNow (code : FaultCode) (pc : Word) (word : Option Word) (addr : Option Nat) : inputNow (raiseFault code pc word addr s) = inputNow s := rfl
@[simp] theorem raiseFault_getV (code : FaultCode) (pc : Word) (word : Option Word) (addr : Option Nat) (j : RegIx) : getV (raiseFault code pc word addr s) j = getV s j := rfl

/-! ### instrFault -/

@[simp] theorem instrFault_mem (code : FaultCode) (i : Instr) (addr : Option Nat) : (instrFault code i addr s).mem = s.mem := rfl
@[simp] theorem instrFault_v (code : FaultCode) (i : Instr) (addr : Option Nat) : (instrFault code i addr s).v = s.v := rfl
@[simp] theorem instrFault_i (code : FaultCode) (i : Instr) (addr : Option Nat) : (instrFault code i addr s).i = s.i := rfl
@[simp] theorem instrFault_pc (code : FaultCode) (i : Instr) (addr : Option Nat) : (instrFault code i addr s).pc = s.pc := rfl
@[simp] theorem instrFault_stack (code : FaultCode) (i : Instr) (addr : Option Nat) : (instrFault code i addr s).stack = s.stack := rfl
@[simp] theorem instrFault_sp (code : FaultCode) (i : Instr) (addr : Option Nat) : (instrFault code i addr s).sp = s.sp := rfl
@[simp] theorem instrFault_dt (code : FaultCode) (i : Instr) (addr : Option Nat) : (instrFault code i addr s).dt = s.dt := rfl
@[simp] theorem instrFault_st (code : FaultCode) (i : Instr) (addr : Option Nat) : (instrFault code i addr s).st = s.st := rfl
@[simp] theorem instrFault_disp (code : FaultCode) (i : Instr) (addr : Option Nat) : (instrFault code i addr s).disp = s.disp := rfl
@[simp] theorem instrFault_execState (code : FaultCode) (i : Instr) (addr : Option Nat) : (instrFault code i addr s).execState = .halted := rfl
@[simp] theorem instrFault_fault (code : FaultCode) (i : Instr) (addr : Option Nat) : (instrFault code i addr s).fault = some ⟨code, instrPc s, some (encode i), addr⟩ := rfl
@[simp] theorem instrFault_tInstr (code : FaultCode) (i : Instr) (addr : Option Nat) : (instrFault code i addr s).tInstr = s.tInstr := rfl
@[simp] theorem instrFault_tTimer (code : FaultCode) (i : Instr) (addr : Option Nat) : (instrFault code i addr s).tTimer = s.tTimer := rfl
@[simp] theorem instrFault_params (code : FaultCode) (i : Instr) (addr : Option Nat) : (instrFault code i addr s).params = s.params := rfl
@[simp] theorem instrFault_scheduler (code : FaultCode) (i : Instr) (addr : Option Nat) : (instrFault code i addr s).scheduler = s.scheduler := rfl
@[simp] theorem instrFault_inputs (code : FaultCode) (i : Instr) (addr : Option Nat) : (instrFault code i addr s).inputs = s.inputs := rfl
@[simp] theorem instrFault_tick (code : FaultCode) (i : Instr) (addr : Option Nat) : (instrFault code i addr s).tick = s.tick := rfl
@[simp] theorem instrFault_out (code : FaultCode) (i : Instr) (addr : Option Nat) : (instrFault code i addr s).out = s.out := rfl
@[simp] theorem instrFault_inputNow (code : FaultCode) (i : Instr) (addr : Option Nat) : inputNow (instrFault code i addr s) = inputNow s := rfl
@[simp] theorem instrFault_getV (code : FaultCode) (i : Instr) (addr : Option Nat) (j : RegIx) : getV (instrFault code i addr s) j = getV s j := rfl

/-! ### push and pop -/

@[simp] theorem push_mem (a : Word) (h : s.sp.val < 16) : (push s a h).mem = s.mem := rfl
@[simp] theorem push_v (a : Word) (h : s.sp.val < 16) : (push s a h).v = s.v := rfl
@[simp] theorem push_i (a : Word) (h : s.sp.val < 16) : (push s a h).i = s.i := rfl
@[simp] theorem push_pc (a : Word) (h : s.sp.val < 16) : (push s a h).pc = s.pc := rfl
@[simp] theorem push_stack (a : Word) (h : s.sp.val < 16) : (push s a h).stack = s.stack.set s.sp.val a := rfl
@[simp] theorem push_sp (a : Word) (h : s.sp.val < 16) : (push s a h).sp = ⟨s.sp.val + 1, by omega⟩ := rfl
@[simp] theorem push_dt (a : Word) (h : s.sp.val < 16) : (push s a h).dt = s.dt := rfl
@[simp] theorem push_st (a : Word) (h : s.sp.val < 16) : (push s a h).st = s.st := rfl
@[simp] theorem push_disp (a : Word) (h : s.sp.val < 16) : (push s a h).disp = s.disp := rfl
@[simp] theorem push_execState (a : Word) (h : s.sp.val < 16) : (push s a h).execState = s.execState := rfl
@[simp] theorem push_fault (a : Word) (h : s.sp.val < 16) : (push s a h).fault = s.fault := rfl
@[simp] theorem push_tInstr (a : Word) (h : s.sp.val < 16) : (push s a h).tInstr = s.tInstr := rfl
@[simp] theorem push_tTimer (a : Word) (h : s.sp.val < 16) : (push s a h).tTimer = s.tTimer := rfl
@[simp] theorem push_params (a : Word) (h : s.sp.val < 16) : (push s a h).params = s.params := rfl
@[simp] theorem push_scheduler (a : Word) (h : s.sp.val < 16) : (push s a h).scheduler = s.scheduler := rfl
@[simp] theorem push_inputs (a : Word) (h : s.sp.val < 16) : (push s a h).inputs = s.inputs := rfl
@[simp] theorem push_tick (a : Word) (h : s.sp.val < 16) : (push s a h).tick = s.tick := rfl
@[simp] theorem push_out (a : Word) (h : s.sp.val < 16) : (push s a h).out = s.out := rfl
@[simp] theorem push_inputNow (a : Word) (h : s.sp.val < 16) : inputNow (push s a h) = inputNow s := rfl
@[simp] theorem push_getV (a : Word) (h : s.sp.val < 16) (j : RegIx) : getV (push s a h) j = getV s j := rfl
@[simp] theorem pop_mem : (pop s).mem = s.mem := rfl
@[simp] theorem pop_v : (pop s).v = s.v := rfl
@[simp] theorem pop_i : (pop s).i = s.i := rfl
@[simp] theorem pop_pc : (pop s).pc = s.pc := rfl
@[simp] theorem pop_stack : (pop s).stack = s.stack := rfl
@[simp] theorem pop_sp : (pop s).sp = ⟨s.sp.val - 1, by omega⟩ := rfl
@[simp] theorem pop_dt : (pop s).dt = s.dt := rfl
@[simp] theorem pop_st : (pop s).st = s.st := rfl
@[simp] theorem pop_disp : (pop s).disp = s.disp := rfl
@[simp] theorem pop_execState : (pop s).execState = s.execState := rfl
@[simp] theorem pop_fault : (pop s).fault = s.fault := rfl
@[simp] theorem pop_tInstr : (pop s).tInstr = s.tInstr := rfl
@[simp] theorem pop_tTimer : (pop s).tTimer = s.tTimer := rfl
@[simp] theorem pop_params : (pop s).params = s.params := rfl
@[simp] theorem pop_scheduler : (pop s).scheduler = s.scheduler := rfl
@[simp] theorem pop_inputs : (pop s).inputs = s.inputs := rfl
@[simp] theorem pop_tick : (pop s).tick = s.tick := rfl
@[simp] theorem pop_out : (pop s).out = s.out := rfl
@[simp] theorem pop_inputNow : inputNow (pop s) = inputNow s := rfl
@[simp] theorem pop_getV (j : RegIx) : getV (pop s) j = getV s j := rfl

/-! ### Registers -/

/-- Reading a register after a register write. -/
theorem getV_setV (x j : RegIx) (b : Byte) : getV (setV s x b) j = if j = x then b else getV s j := by
  simp only [getV, setV, Fin.getElem_fin, Vector.getElem_set, Fin.ext_iff, eq_comm (a := j.val)]

@[simp] theorem getV_setV_same (x : RegIx) (b : Byte) : getV (setV s x b) x = b := by
  simp [getV_setV]

@[simp] theorem getV_setV_ne {x j : RegIx} (b : Byte) (h : j ≠ x) : getV (setV s x b) j = getV s j := by
  simp [getV_setV, h]

/-- A register file is what its registers read as. -/
theorem v_ext {s t : State} (h : ∀ j, getV s j = getV t j) : s.v = t.v := by
  exact Vector.ext fun j hj => h ⟨j, hj⟩

end Sys2Proof.Laws
end

