-- ==== Sys2Proof/Laws/Ops.lean ====
section
/-! SUPPORT. One lemma per shared operation that says what it answers: the range check around an access,
the flags, the flag-last write, the operand forms, the countdown, the render, the key wait. -/

namespace Sys2Proof.Laws
open Sys2Proof Sys2Proof.Machine

variable {s : State}

/-! ## Accesses through I (R230, R623) -/

theorem withRange_ok {i : Instr} {k : Nat} {f : State → State} (h : k = 0 ∨ s.i.toNat + k ≤ 4096) :
    withRange i k s f = .next (f s) := by
  simp [withRange, checkRange_none h]

theorem withRange_fault {i : Instr} {k : Nat} {f : State → State} (hk : 0 < k)
    (h : 4096 < s.i.toNat + k) :
    withRange i k s f = .next (instrFault .memRange i (some (max s.i.toNat 4096)) s) := by
  simp [withRange, checkRange_some hk h]

/-- The two answers of a checked access. -/
theorem withRange_cases {i : Instr} {k : Nat} {f : State → State} {t : State}
    (h : withRange i k s f = .next t) :
    ((k = 0 ∨ s.i.toNat + k ≤ 4096) ∧ t = f s) ∨
    (0 < k ∧ 4096 < s.i.toNat + k ∧ t = instrFault .memRange i (some (max s.i.toNat 4096)) s) := by
  by_cases hr : k = 0 ∨ s.i.toNat + k ≤ 4096
  · rw [withRange_ok hr] at h; cases h; exact .inl ⟨hr, rfl⟩
  · rw [withRange_fault (by omega) (by omega)] at h; cases h; exact .inr ⟨by omega, by omega, rfl⟩

/-! ## Flags (R103, R104) -/

theorem flagByte_eq_ite (c : Bool) : flagByte c = if c = true then 1 else 0 := rfl

@[simp] theorem flagByte_eq_one (c : Bool) : flagByte c = 1#8 ↔ c = true := by cases c <;> decide

theorem flagByte_zero_or_one (c : Bool) : flagByte c = 0#8 ∨ flagByte c = 1#8 := by cases c <;> decide

theorem carryFlag_eq (a b : Byte) : carryFlag a b = if 255 < a.toNat + b.toNat then 1 else 0 := by
  simp [carryFlag, flagByte_eq_ite]

theorem greaterFlag_eq (a b : Byte) : greaterFlag a b = if b.toNat < a.toNat then 1 else 0 := by
  simp [greaterFlag, flagByte_eq_ite]

theorem lowBitFlag_eq (a : Byte) : lowBitFlag a = BitVec.ofNat 8 (a.toNat % 2) := by
  revert a; decide +kernel

theorem highBitFlag_eq (a : Byte) : highBitFlag a = BitVec.ofNat 8 (a.toNat / 128) := by
  revert a; decide +kernel

/-- The flag-last write: VF holds the flag, and Vx the result unless Vx is VF. -/
theorem getV_setWithFlag (x j : RegIx) (r f : Byte) :
    getV (setWithFlag s x r f) j = if j = 15 then f else if j = x then r else getV s j := by
  simp [setWithFlag, getV_setV, vf]

@[simp] theorem setWithFlag_mem (x : RegIx) (r g : Byte) : (setWithFlag s x r g).mem = s.mem := rfl
@[simp] theorem setWithFlag_i (x : RegIx) (r g : Byte) : (setWithFlag s x r g).i = s.i := rfl
@[simp] theorem setWithFlag_pc (x : RegIx) (r g : Byte) : (setWithFlag s x r g).pc = s.pc := rfl
@[simp] theorem setWithFlag_stack (x : RegIx) (r g : Byte) : (setWithFlag s x r g).stack = s.stack := rfl
@[simp] theorem setWithFlag_sp (x : RegIx) (r g : Byte) : (setWithFlag s x r g).sp = s.sp := rfl
@[simp] theorem setWithFlag_dt (x : RegIx) (r g : Byte) : (setWithFlag s x r g).dt = s.dt := rfl
@[simp] theorem setWithFlag_st (x : RegIx) (r g : Byte) : (setWithFlag s x r g).st = s.st := rfl
@[simp] theorem setWithFlag_disp (x : RegIx) (r g : Byte) : (setWithFlag s x r g).disp = s.disp := rfl
@[simp] theorem setWithFlag_execState (x : RegIx) (r g : Byte) : (setWithFlag s x r g).execState = s.execState := rfl
@[simp] theorem setWithFlag_fault (x : RegIx) (r g : Byte) : (setWithFlag s x r g).fault = s.fault := rfl
@[simp] theorem setWithFlag_tInstr (x : RegIx) (r g : Byte) : (setWithFlag s x r g).tInstr = s.tInstr := rfl
@[simp] theorem setWithFlag_tTimer (x : RegIx) (r g : Byte) : (setWithFlag s x r g).tTimer = s.tTimer := rfl
@[simp] theorem setWithFlag_params (x : RegIx) (r g : Byte) : (setWithFlag s x r g).params = s.params := rfl
@[simp] theorem setWithFlag_scheduler (x : RegIx) (r g : Byte) : (setWithFlag s x r g).scheduler = s.scheduler := rfl
@[simp] theorem setWithFlag_inputs (x : RegIx) (r g : Byte) : (setWithFlag s x r g).inputs = s.inputs := rfl
@[simp] theorem setWithFlag_tick (x : RegIx) (r g : Byte) : (setWithFlag s x r g).tick = s.tick := rfl
@[simp] theorem setWithFlag_out (x : RegIx) (r g : Byte) : (setWithFlag s x r g).out = s.out := rfl
@[simp] theorem setWithFlag_inputNow (x : RegIx) (r g : Byte) : inputNow (setWithFlag s x r g) = inputNow s := rfl

theorem setWithFlag_eq (x : RegIx) (r f : Byte) :
    setWithFlag s x r f = { s with v := (setWithFlag s x r f).v } := rfl

/-! ## Operand forms -/

theorem offsetTarget_toNat (nnn : Addr12) : (offsetTarget s nnn).toNat = nnn.toNat + (getV s 0).toNat := by
  have h1 := nnn.isLt; have h2 := (getV s 0).isLt
  simp only [offsetTarget, zextAddr, zextByte, BitVec.toNat_add, BitVec.toNat_setWidth]
  omega

theorem glyphAddress_toNat (b : Byte) : (glyphAddress b).toNat = b.toNat * 5 := by
  have := b.isLt
  simp only [glyphAddress, zextByte, BitVec.toNat_mul, BitVec.toNat_setWidth, BitVec.toNat_ofNat]
  omega

@[simp] theorem length_bcdDigits (b : Byte) : (bcdDigits b).length = 3 := rfl

@[simp] theorem length_regsUpTo (x : RegIx) : (regsUpTo s x).length = x.val + 1 := by
  simp [regsUpTo]

theorem regsUpTo_getD {x j : RegIx} (h : j ≤ x) : (regsUpTo s x).getD j.val 0#8 = getV s j := by
  have : j.val < x.val + 1 := by simp only [Fin.le_def] at h; omega
  simp [regsUpTo, this, getV]

/-- The registers that a block load has reached hold their bytes, the others are as before (R475). -/
theorem getV_loadRegs (k : Nat) (hk : k ≤ 16) (j : RegIx) :
    getV (((List.finRange 16).take k).foldl loadReg s) j =
      if j.val < k then Memory.read s.mem (s.i.toNat + j.val) else getV s j := by
  have frame : ∀ l : List RegIx, (l.foldl loadReg s).mem = s.mem ∧ (l.foldl loadReg s).i = s.i := by
    intro l
    induction l using List.reverseRecOn with
    | nil => simp
    | append_singleton l a ih => simpa [loadReg] using ih
  induction k with
  | zero => simp
  | succ k ih =>
    have hk' : k < 16 := by omega
    have hget : (List.finRange 16)[k]'(by simpa using hk') = ⟨k, hk'⟩ := by simp
    rw [List.take_succ_eq_append_getElem (by simpa using hk'), hget, List.foldl_append]
    simp only [List.foldl_cons, List.foldl_nil, loadReg, getV_setV, ih (by omega), frame]
    by_cases h : j = ⟨k, hk'⟩
    · subst h; simp
    · have : j.val ≠ k := fun e => h (Fin.ext e)
      rw [if_neg h]
      split_ifs <;> first | rfl | omega

theorem foldl_loadReg_frame (l : List RegIx) :
    l.foldl loadReg s = { s with v := (l.foldl loadReg s).v } := by
  induction l using List.reverseRecOn with
  | nil => rfl
  | append_singleton l a ih =>
    rw [List.foldl_append]
    simp only [List.foldl_cons, List.foldl_nil]
    rw [ih]; rfl

/-! ## Timers, render, key wait -/

theorem countDown_toNat (t : Byte) : (countDown t).toNat = t.toNat - 1 := by
  revert t; decide +kernel

@[simp] theorem timerStep_halted (h : s.execState = .halted) : timerStep s = s := by
  simp [timerStep, h]

theorem timerStep_of_not_halted (h : s.execState ≠ .halted) :
    timerStep s =
      { s with
        dt := countDown s.dt
        st := countDown s.st
        out := { s.out with frame := some (render s.params s.disp) } } := by
  unfold timerStep; split <;> simp_all

@[simp] theorem length_render (p : Params) (d : Display) : (render p d).length = 2048 := by
  simp [render]

theorem render_getElem? (p : Params) (d : Display) {k : Nat} (h : k < 2048) :
    (render p d)[k]? = some (if d.getLsbD k = true then p.pixelOn else p.pixelOff) := by
  simp [render, h]

theorem resolveWait_none {r : RegIx} (h : (inputNow s).keyPress = none) : resolveWait r s = s := by
  simp [resolveWait, h]

theorem resolveWait_some {r : RegIx} {d : Fin 16} (h : (inputNow s).keyPress = some d) :
    resolveWait r s = setExec (setV s r (BitVec.ofNat 8 d.val)) .running := by
  simp [resolveWait, h]

end Sys2Proof.Laws
end

