-- ==== Sys2Proof/Laws/Display.lean ====
section
/-! SUPPORT. What the compositor's loops do, in closed form: a row, and then a sprite, flips exactly the
pixels on which a set bit falls, and hits exactly when one of them was on (R491 to R494). -/

namespace Sys2Proof.Laws
open Sys2Proof Sys2Proof.Machine

theorem pixelIndex_lt {x y : Nat} (hx : x < 64) (hy : y < 32) : pixelIndex x y < 2048 := by
  simp only [pixelIndex, Config.dispW]; omega

theorem pixelIndex_inj {x y x' y' : Nat} (hx : x < 64) (hx' : x' < 64) :
    pixelIndex x y = pixelIndex x' y' ↔ x = x' ∧ y = y' := by
  simp only [pixelIndex, Config.dispW]; omega

/-- Reading a pixel after one pixel has been XORed. -/
theorem pixel_xorPixel (d : Display) {x y x' y' : Nat} (on : Bool) (hx : x < 64) (hy : y < 32)
    (hx' : x' < 64) :
    pixel (xorPixel d x' y' on) x y = true ↔ ¬ (pixel d x y = true ↔ (on = true ∧ x = x' ∧ y = y')) := by
  cases on
  · simp [xorPixel]
  · have := pixelIndex_lt hx hy
    have inj := pixelIndex_inj (y := y) (y' := y') hx hx'
    simp only [xorPixel, pixel, if_true, BitVec.getLsbD_xor, BitVec.getLsbD_twoPow, true_and, ← inj]
    by_cases e : pixelIndex x y = pixelIndex x' y'
    · simp [e, e ▸ this]
    · simp [e, Ne.symm e]

/-- Two displays are equal when their pixels are. -/
theorem display_ext {d e : Display} (h : ∀ x y, x < 64 → y < 32 → (pixel d x y = true ↔ pixel e x y = true)) :
    d = e := by
  apply BitVec.eq_of_getLsbD_eq
  intro k hk
  have := h (k % 64) (k / 64) (by omega) (by omega)
  have hi : pixelIndex (k % 64) (k / 64) = k := by simp only [pixelIndex, Config.dispW]; omega
  rw [pixel, pixel, hi] at this
  exact Bool.eq_iff_iff.2 this

/-- A set bit among the first `k` bits of a row falls on column `px`. -/
def RowOn (cx : Nat) (row : Byte) (k px : Nat) : Prop :=
  ∃ b, b < k ∧ px = (cx + b) % 64 ∧ spriteBit row b = true

theorem rowOn_succ {cx k px : Nat} {row : Byte} :
    RowOn cx row (k + 1) px ↔ RowOn cx row k px ∨ (px = (cx + k) % 64 ∧ spriteBit row k = true) := by
  constructor
  · rintro ⟨b, hb, h⟩
    by_cases e : b = k
    · exact .inr (e ▸ h)
    · exact .inl ⟨b, by omega, h⟩
  · rintro (⟨b, hb, h⟩ | h)
    · exact ⟨b, by omega, h⟩
    · exact ⟨k, by omega, h⟩

/-- The first `k` bits of a row fall on distinct columns. -/
theorem not_rowOn_next {cx k : Nat} {row : Byte} (hk : k < 64) : ¬ RowOn cx row k ((cx + k) % 64) := by
  rintro ⟨b, hb, h, -⟩; omega

/-- The first `k` bits of a row: the pixels and the collision. -/
theorem drawBits_spec (cx qy : Nat) (row : Byte) (c : Canvas) (k : Nat) (hk : k ≤ 64) (hq : qy < 32) :
    let c' := (List.range k).foldl (fun c b => plot ((cx + b) % Config.dispW) qy (spriteBit row b) c) c
    (∀ px py, px < 64 → py < 32 →
      (pixel c'.disp px py = true ↔ ¬ (pixel c.disp px py = true ↔ (py = qy ∧ RowOn cx row k px)))) ∧
    (c'.hit = true ↔ c.hit = true ∨ ∃ px, RowOn cx row k px ∧ pixel c.disp px qy = true) := by
  induction k with
  | zero => simp [RowOn]
  | succ k ih =>
    obtain ⟨ihp, ihh⟩ := ih (by omega)
    simp only [List.range_succ, List.foldl_append, List.foldl_cons, List.foldl_nil, Config.dispW] at ihp ihh ⊢
    generalize List.foldl _ c (List.range k) = d at ihp ihh
    have hc : (cx + k) % 64 < 64 := by omega
    have fresh := not_rowOn_next (cx := cx) (row := row) (show k < 64 by omega)
    have same : pixel d.disp ((cx + k) % 64) qy = true ↔ pixel c.disp ((cx + k) % 64) qy = true := by
      rw [ihp _ _ hc hq]; simp [fresh]
    constructor
    · intro px py hx hy
      simp only [plot]
      rw [pixel_xorPixel _ _ hx hy hc, ihp px py hx hy, rowOn_succ]
      by_cases e : px = (cx + k) % 64
      · subst e; simp only [fresh]; clear ihp ihh same; tauto
      · clear ihp ihh same; tauto
    · simp only [plot, Bool.or_eq_true, Bool.and_eq_true, ihh, same, rowOn_succ]
      constructor
      · rintro ((h | ⟨px, h, hp⟩) | ⟨h, hp⟩)
        · exact .inl h
        · exact .inr ⟨px, .inl h, hp⟩
        · exact .inr ⟨(cx + k) % 64, .inr ⟨rfl, h⟩, hp⟩
      · rintro (h | ⟨px, h | ⟨rfl, h⟩, hp⟩)
        · exact .inl (.inl h)
        · exact .inl (.inr ⟨px, h, hp⟩)
        · exact .inr ⟨h, hp⟩

/-- A set bit among the first `k` rows of the sprite at `a` falls on column `px`, row `py`. -/
def SpriteRowsOn (m : Memory) (a cx cy k px py : Nat) : Prop :=
  ∃ r b, r < k ∧ b < 8 ∧ px = (cx + b) % 64 ∧ py = (cy + r) % 32 ∧ spriteBit (Memory.read m (a + r)) b = true

theorem spriteRowsOn_succ {m : Memory} {a cx cy k px py : Nat} :
    SpriteRowsOn m a cx cy (k + 1) px py ↔
      SpriteRowsOn m a cx cy k px py ∨ (py = (cy + k) % 32 ∧ RowOn cx (Memory.read m (a + k)) 8 px) := by
  constructor
  · rintro ⟨r, b, hr, hb, hx, hy, h⟩
    by_cases e : r = k
    · subst e; exact .inr ⟨hy, b, hb, hx, h⟩
    · exact .inl ⟨r, b, by omega, hb, hx, hy, h⟩
  · rintro (⟨r, b, hr, h⟩ | ⟨hy, b, hb, hx, h⟩)
    · exact ⟨r, b, by omega, h⟩
    · exact ⟨k, b, by omega, hb, hx, hy, h⟩

/-- The rows of a sprite fall on distinct display rows. -/
theorem not_spriteRowsOn_next {m : Memory} {a cx cy k px : Nat} (hk : k < 32) :
    ¬ SpriteRowsOn m a cx cy k px ((cy + k) % 32) := by
  rintro ⟨r, b, hr, -, -, h, -⟩; omega

theorem spriteRowsOn_lt {m : Memory} {a cx cy k px py : Nat} (h : SpriteRowsOn m a cx cy k px py) :
    px < 64 ∧ py < 32 := by
  obtain ⟨r, b, -, -, hx, hy, -⟩ := h; omega

/-- A draw: the pixels and the collision. -/
theorem drawSprite_spec (m : Memory) (a cx cy : Nat) (c : Canvas) (k : Nat) (hk : k ≤ 32) :
    (∀ px py, px < 64 → py < 32 →
      (pixel (drawSprite m a cx cy k c).disp px py = true ↔
        ¬ (pixel c.disp px py = true ↔ SpriteRowsOn m a cx cy k px py))) ∧
    ((drawSprite m a cx cy k c).hit = true ↔
      c.hit = true ∨ ∃ px py, SpriteRowsOn m a cx cy k px py ∧ pixel c.disp px py = true) := by
  induction k with
  | zero => simp [drawSprite, SpriteRowsOn]
  | succ k ih =>
    obtain ⟨ihp, ihh⟩ := ih (by omega)
    have step : drawSprite m a cx cy (k + 1) c =
        drawRow cx ((cy + k) % 32) (Memory.read m (a + k)) (drawSprite m a cx cy k c) := by
      simp [drawSprite, List.range_succ, Config.dispH]
    rw [step]
    generalize drawSprite m a cx cy k c = d at ihp ihh ⊢
    have hq : (cy + k) % 32 < 32 := by omega
    obtain ⟨rp, rh⟩ := drawBits_spec cx ((cy + k) % 32) (Memory.read m (a + k)) d 8 (by omega) hq
    have fresh : ∀ px, ¬ SpriteRowsOn m a cx cy k px ((cy + k) % 32) :=
      fun px => not_spriteRowsOn_next (by omega)
    have same : ∀ px, RowOn cx (Memory.read m (a + k)) 8 px →
        (pixel d.disp px ((cy + k) % 32) = true ↔ pixel c.disp px ((cy + k) % 32) = true) := by
      intro px h
      have hx : px < 64 := by obtain ⟨b, -, e, -⟩ := h; omega
      rw [ihp px _ hx hq]; simp [fresh px]
    unfold drawRow
    refine ⟨fun px py hx hy => ?_, ?_⟩
    · rw [rp px py hx hy, ihp px py hx hy, spriteRowsOn_succ]
      clear rp rh ihp ihh same
      by_cases e : py = (cy + k) % 32
      · subst e; simp only [fresh]; tauto
      · tauto
    · rw [rh, ihh]
      constructor
      · rintro ((h | ⟨px, py, h, hp⟩) | ⟨px, h, hp⟩)
        · exact .inl h
        · exact .inr ⟨px, py, spriteRowsOn_succ.2 (.inl h), hp⟩
        · exact .inr ⟨px, _, spriteRowsOn_succ.2 (.inr ⟨rfl, h⟩), (same px h).1 hp⟩
      · rintro (h | ⟨px, py, h, hp⟩)
        · exact .inl (.inl h)
        · rcases spriteRowsOn_succ.1 h with h1 | ⟨rfl, h1⟩
          · exact .inl (.inr ⟨px, py, h1, hp⟩)
          · exact .inr ⟨px, h1, (same px h1).2 hp⟩

end Sys2Proof.Laws
end

