-- ==== Sys2Proof/Laws/Exec.lean ====
section
/-! SUPPORT. What every meaning has in common: it leaves the model's own fields and the timestamps alone,
and the inputs it does not read do not matter. -/

namespace Sys2Proof.Laws
open Sys2Proof Sys2Proof.Machine

variable {i : Instr} {s t : State}

/-- An inversion of `exec` for the four instructions that access memory through I, the two that use the
stack and the two that test a key; the other arms answer one record update. -/
theorem execRet_cases (h : exec .ret s = .next t) :
    (s.sp = 0 ∧ t = instrFault .stackUnderflow .ret none s) ∨
    (s.sp ≠ 0 ∧ t = setPc (pop s) (topOfStack s)) := by
  simp only [exec, execRet] at h
  split_ifs at h with h0 <;> cases h
  · exact .inl ⟨h0, rfl⟩
  · exact .inr ⟨h0, rfl⟩

theorem execCall_cases {nnn : Addr12} (h : exec (.call nnn) s = .next t) :
    (∃ h' : s.sp.val < 16, t = setPc (push s s.pc h') (zextAddr nnn)) ∨
    (s.sp.val = 16 ∧ t = instrFault .stackOverflow (.call nnn) none s) := by
  simp only [exec, execCall] at h
  split_ifs at h with h0 <;> cases h
  · exact .inl ⟨h0, rfl⟩
  · exact .inr ⟨by omega, rfl⟩

theorem execLdB_cases {x : RegIx} (h : exec (.ldB x) s = .next t) :
    (s.i.toNat + 3 ≤ 4096 ∧
      t = setMem s (Memory.writeBytes s.mem s.i.toNat (bcdDigits (getV s x)))) ∨
    (4096 < s.i.toNat + 3 ∧ t = instrFault .memRange (.ldB x) (some (max s.i.toNat 4096)) s) := by
  simp only [exec, execLdB] at h
  rcases withRange_cases h with ⟨hr, rfl⟩ | ⟨-, hr, rfl⟩
  · exact .inl ⟨by omega, rfl⟩
  · exact .inr ⟨hr, rfl⟩

theorem execStoreRegs_cases {x : RegIx} (h : exec (.storeRegs x) s = .next t) :
    (s.i.toNat + x.val < 4096 ∧
      t = setMem s (Memory.writeBytes s.mem s.i.toNat (regsUpTo s x))) ∨
    (4096 ≤ s.i.toNat + x.val ∧
      t = instrFault .memRange (.storeRegs x) (some (max s.i.toNat 4096)) s) := by
  simp only [exec, execStoreRegs] at h
  rcases withRange_cases h with ⟨hr, rfl⟩ | ⟨-, hr, rfl⟩
  · exact .inl ⟨by omega, rfl⟩
  · exact .inr ⟨by omega, rfl⟩

theorem execLoadRegs_cases {x : RegIx} (h : exec (.loadRegs x) s = .next t) :
    (s.i.toNat + x.val < 4096 ∧ t = ((List.finRange 16).take (x.val + 1)).foldl loadReg s) ∨
    (4096 ≤ s.i.toNat + x.val ∧
      t = instrFault .memRange (.loadRegs x) (some (max s.i.toNat 4096)) s) := by
  simp only [exec, execLoadRegs] at h
  rcases withRange_cases h with ⟨hr, rfl⟩ | ⟨-, hr, rfl⟩
  · exact .inl ⟨by omega, rfl⟩
  · exact .inr ⟨by omega, rfl⟩

/-- The canvas that `Dxyn` ends with. -/
abbrev drawn (s : State) (x y : RegIx) (n : Fin 16) : Canvas :=
  drawSprite s.mem s.i.toNat (getV s x).toNat (getV s y).toNat n.val ⟨s.disp, false⟩

theorem execDrw_cases {x y : RegIx} {n : Fin 16} (h : exec (.drw x y n) s = .next t) :
    ((n.val = 0 ∨ s.i.toNat + n.val ≤ 4096) ∧
      t = setV (setDisp s (drawn s x y n).disp) vf (flagByte (drawn s x y n).hit)) ∨
    (0 < n.val ∧ 4096 < s.i.toNat + n.val ∧
      t = instrFault .memRange (.drw x y n) (some (max s.i.toNat 4096)) s) := by
  simp only [exec, execDrw] at h
  exact withRange_cases h

theorem skipOnKey_cases (wanted : Bool) (k : Byte) (s : State) :
    (0xF < k.toNat ∧ skipOnKey wanted k s = raiseAnomaly (.keyUnmapped (instrPc s) k) s) ∨
    (k.toNat ≤ 0xF ∧ skipOnKey wanted k s = skipIf (keyDown s k.toNat == wanted) s) := by
  unfold skipOnKey
  split_ifs with h
  · exact .inl ⟨h, rfl⟩
  · exact .inr ⟨by omega, rfl⟩

/-! ## The accesses through I, by their range -/

theorem execLdB_ok (x : RegIx) (h : s.i.toNat + 2 < 4096) :
    exec (.ldB x) s = .next (setMem s (Memory.writeBytes s.mem s.i.toNat (bcdDigits (getV s x)))) := by
  simp only [exec, execLdB]; exact withRange_ok (by omega)

theorem execLdB_fault (x : RegIx) (h : 4096 ≤ s.i.toNat + 2) :
    exec (.ldB x) s = .next (instrFault .memRange (.ldB x) (some (max s.i.toNat 4096)) s) := by
  simp only [exec, execLdB]; exact withRange_fault (by omega) (by omega)

theorem execStoreRegs_ok (x : RegIx) (h : s.i.toNat + x.val < 4096) :
    exec (.storeRegs x) s = .next (setMem s (Memory.writeBytes s.mem s.i.toNat (regsUpTo s x))) := by
  simp only [exec, execStoreRegs]; exact withRange_ok (by omega)

theorem execStoreRegs_fault (x : RegIx) (h : 4096 ≤ s.i.toNat + x.val) :
    exec (.storeRegs x) s = .next (instrFault .memRange (.storeRegs x) (some (max s.i.toNat 4096)) s) := by
  simp only [exec, execStoreRegs]; exact withRange_fault (by omega) (by omega)

theorem execLoadRegs_ok (x : RegIx) (h : s.i.toNat + x.val < 4096) :
    exec (.loadRegs x) s = .next (((List.finRange 16).take (x.val + 1)).foldl loadReg s) := by
  simp only [exec, execLoadRegs]; exact withRange_ok (by omega)

theorem execLoadRegs_fault (x : RegIx) (h : 4096 ≤ s.i.toNat + x.val) :
    exec (.loadRegs x) s = .next (instrFault .memRange (.loadRegs x) (some (max s.i.toNat 4096)) s) := by
  simp only [exec, execLoadRegs]; exact withRange_fault (by omega) (by omega)

theorem execDrw_ok (x y : RegIx) (n : Fin 16) (h : n.val = 0 ∨ s.i.toNat + n.val ≤ 4096) :
    exec (.drw x y n) s =
      .next (setV (setDisp s (drawn s x y n).disp) vf (flagByte (drawn s x y n).hit)) := by
  simp only [exec, execDrw]; exact withRange_ok h

theorem execDrw_fault (x y : RegIx) (n : Fin 16) (hn : 0 < n.val) (h : 4096 < s.i.toNat + n.val) :
    exec (.drw x y n) s = .next (instrFault .memRange (.drw x y n) (some (max s.i.toNat 4096)) s) := by
  simp only [exec, execDrw]; exact withRange_fault hn h

/-- The meanings leave the timestamps, the parameters, the scheduler, the inputs and the tick alone, and
put no frame out. -/
theorem exec_keeps (h : exec i s = .next t) :
    t.tInstr = s.tInstr ∧ t.tTimer = s.tTimer ∧ t.params = s.params ∧ t.scheduler = s.scheduler ∧
      t.inputs = s.inputs ∧ t.tick = s.tick ∧ t.out.frame = s.out.frame := by
  cases i
  case ret => rcases execRet_cases h with ⟨-, rfl⟩ | ⟨-, rfl⟩ <;> simp
  case call => rcases execCall_cases h with ⟨_, rfl⟩ | ⟨-, rfl⟩ <;> simp
  case ldB => rcases execLdB_cases h with ⟨-, rfl⟩ | ⟨-, rfl⟩ <;> simp
  case storeRegs => rcases execStoreRegs_cases h with ⟨-, rfl⟩ | ⟨-, rfl⟩ <;> simp
  case loadRegs =>
    rcases execLoadRegs_cases h with ⟨-, rfl⟩ | ⟨-, rfl⟩
    · rw [foldl_loadReg_frame]; simp
    · simp
  case drw => rcases execDrw_cases h with ⟨-, rfl⟩ | ⟨-, -, rfl⟩ <;> simp
  case skp x =>
    cases h
    rcases skipOnKey_cases true (getV s x) s with ⟨-, e⟩ | ⟨-, e⟩ <;> rw [e] <;> simp
  case sknp x =>
    cases h
    rcases skipOnKey_cases false (getV s x) s with ⟨-, e⟩ | ⟨-, e⟩ <;> rw [e] <;> simp
  all_goals cases h; simp [setWithFlag]

end Sys2Proof.Laws
end

