-- ==== Sys2Proof/Laws/PerInstr.lean ====
section
/-! SUPPORT. The statements made per instruction: an instruction's word lies in the instruction's row of
R310, and that row stands in the table. -/

namespace Sys2Proof.Laws.EncodesItsRow
open Sys2Proof Sys2Proof.Laws

/-- The encoding of `i` has the fixed bits of `i`'s row, which is one of the 34. -/
def Statement (i : Instr) : Prop := encode i &&& (opcodeRow i).mask = (opcodeRow i).pattern ∧ opcodeRow i ∈ opcodeRows

theorem cls : Statement (.cls) :=
  ⟨by decide, by decide⟩
theorem ret : Statement (.ret) :=
  ⟨by decide, by decide⟩
theorem jp (nnn : Addr12) : Statement (.jp nnn) :=
  ⟨(and_F000 _).trans (by simp [encode, opcodeRow]; decide), by simp [opcodeRow, opcodeRows]⟩
theorem call (nnn : Addr12) : Statement (.call nnn) :=
  ⟨(and_F000 _).trans (by simp [encode, opcodeRow]; decide), by simp [opcodeRow, opcodeRows]⟩
theorem seImm (x : RegIx) (kk : Byte) : Statement (.seImm x kk) :=
  ⟨(and_F000 _).trans (by simp [encode, opcodeRow]; decide), by simp [opcodeRow, opcodeRows]⟩
theorem sneImm (x : RegIx) (kk : Byte) : Statement (.sneImm x kk) :=
  ⟨(and_F000 _).trans (by simp [encode, opcodeRow]; decide), by simp [opcodeRow, opcodeRows]⟩
theorem seReg (x y : RegIx) : Statement (.seReg x y) :=
  ⟨(and_F00F _).trans (by simp [encode, opcodeRow]; decide), by simp [opcodeRow, opcodeRows]⟩
theorem ldImm (x : RegIx) (kk : Byte) : Statement (.ldImm x kk) :=
  ⟨(and_F000 _).trans (by simp [encode, opcodeRow]; decide), by simp [opcodeRow, opcodeRows]⟩
theorem addImm (x : RegIx) (kk : Byte) : Statement (.addImm x kk) :=
  ⟨(and_F000 _).trans (by simp [encode, opcodeRow]; decide), by simp [opcodeRow, opcodeRows]⟩
theorem ldReg (x y : RegIx) : Statement (.ldReg x y) :=
  ⟨(and_F00F _).trans (by simp [encode, opcodeRow]; decide), by simp [opcodeRow, opcodeRows]⟩
theorem orReg (x y : RegIx) : Statement (.orReg x y) :=
  ⟨(and_F00F _).trans (by simp [encode, opcodeRow]; decide), by simp [opcodeRow, opcodeRows]⟩
theorem andReg (x y : RegIx) : Statement (.andReg x y) :=
  ⟨(and_F00F _).trans (by simp [encode, opcodeRow]; decide), by simp [opcodeRow, opcodeRows]⟩
theorem xorReg (x y : RegIx) : Statement (.xorReg x y) :=
  ⟨(and_F00F _).trans (by simp [encode, opcodeRow]; decide), by simp [opcodeRow, opcodeRows]⟩
theorem addReg (x y : RegIx) : Statement (.addReg x y) :=
  ⟨(and_F00F _).trans (by simp [encode, opcodeRow]; decide), by simp [opcodeRow, opcodeRows]⟩
theorem subReg (x y : RegIx) : Statement (.subReg x y) :=
  ⟨(and_F00F _).trans (by simp [encode, opcodeRow]; decide), by simp [opcodeRow, opcodeRows]⟩
theorem shr (x y : RegIx) : Statement (.shr x y) :=
  ⟨(and_F00F _).trans (by simp [encode, opcodeRow]; decide), by simp [opcodeRow, opcodeRows]⟩
theorem subnReg (x y : RegIx) : Statement (.subnReg x y) :=
  ⟨(and_F00F _).trans (by simp [encode, opcodeRow]; decide), by simp [opcodeRow, opcodeRows]⟩
theorem shl (x y : RegIx) : Statement (.shl x y) :=
  ⟨(and_F00F _).trans (by simp [encode, opcodeRow]; decide), by simp [opcodeRow, opcodeRows]⟩
theorem sneReg (x y : RegIx) : Statement (.sneReg x y) :=
  ⟨(and_F00F _).trans (by simp [encode, opcodeRow]; decide), by simp [opcodeRow, opcodeRows]⟩
theorem ldI (nnn : Addr12) : Statement (.ldI nnn) :=
  ⟨(and_F000 _).trans (by simp [encode, opcodeRow]; decide), by simp [opcodeRow, opcodeRows]⟩
theorem jpV0 (nnn : Addr12) : Statement (.jpV0 nnn) :=
  ⟨(and_F000 _).trans (by simp [encode, opcodeRow]; decide), by simp [opcodeRow, opcodeRows]⟩
theorem rnd (x : RegIx) (kk : Byte) : Statement (.rnd x kk) :=
  ⟨(and_F000 _).trans (by simp [encode, opcodeRow]; decide), by simp [opcodeRow, opcodeRows]⟩
theorem drw (x y : RegIx) (n : Fin 16) : Statement (.drw x y n) :=
  ⟨(and_F000 _).trans (by simp [encode, opcodeRow]; decide), by simp [opcodeRow, opcodeRows]⟩
theorem skp (x : RegIx) : Statement (.skp x) :=
  ⟨(and_F0FF _).trans (by simp [encode, opcodeRow]; decide), by simp [opcodeRow, opcodeRows]⟩
theorem sknp (x : RegIx) : Statement (.sknp x) :=
  ⟨(and_F0FF _).trans (by simp [encode, opcodeRow]; decide), by simp [opcodeRow, opcodeRows]⟩
theorem ldVxDt (x : RegIx) : Statement (.ldVxDt x) :=
  ⟨(and_F0FF _).trans (by simp [encode, opcodeRow]; decide), by simp [opcodeRow, opcodeRows]⟩
theorem ldVxK (x : RegIx) : Statement (.ldVxK x) :=
  ⟨(and_F0FF _).trans (by simp [encode, opcodeRow]; decide), by simp [opcodeRow, opcodeRows]⟩
theorem ldDtVx (x : RegIx) : Statement (.ldDtVx x) :=
  ⟨(and_F0FF _).trans (by simp [encode, opcodeRow]; decide), by simp [opcodeRow, opcodeRows]⟩
theorem ldStVx (x : RegIx) : Statement (.ldStVx x) :=
  ⟨(and_F0FF _).trans (by simp [encode, opcodeRow]; decide), by simp [opcodeRow, opcodeRows]⟩
theorem addI (x : RegIx) : Statement (.addI x) :=
  ⟨(and_F0FF _).trans (by simp [encode, opcodeRow]; decide), by simp [opcodeRow, opcodeRows]⟩
theorem ldF (x : RegIx) : Statement (.ldF x) :=
  ⟨(and_F0FF _).trans (by simp [encode, opcodeRow]; decide), by simp [opcodeRow, opcodeRows]⟩
theorem ldB (x : RegIx) : Statement (.ldB x) :=
  ⟨(and_F0FF _).trans (by simp [encode, opcodeRow]; decide), by simp [opcodeRow, opcodeRows]⟩
theorem storeRegs (x : RegIx) : Statement (.storeRegs x) :=
  ⟨(and_F0FF _).trans (by simp [encode, opcodeRow]; decide), by simp [opcodeRow, opcodeRows]⟩
theorem loadRegs (x : RegIx) : Statement (.loadRegs x) :=
  ⟨(and_F0FF _).trans (by simp [encode, opcodeRow]; decide), by simp [opcodeRow, opcodeRows]⟩

end Sys2Proof.Laws.EncodesItsRow

namespace Sys2Proof.Laws
open Sys2Proof

/-- The word of every instruction lies in the instruction's row. -/
theorem encodesItsRow : ∀ i : Instr, EncodesItsRow.Statement i
  | .cls => EncodesItsRow.cls
  | .ret => EncodesItsRow.ret
  | .jp nnn => EncodesItsRow.jp nnn
  | .call nnn => EncodesItsRow.call nnn
  | .seImm x kk => EncodesItsRow.seImm x kk
  | .sneImm x kk => EncodesItsRow.sneImm x kk
  | .seReg x y => EncodesItsRow.seReg x y
  | .ldImm x kk => EncodesItsRow.ldImm x kk
  | .addImm x kk => EncodesItsRow.addImm x kk
  | .ldReg x y => EncodesItsRow.ldReg x y
  | .orReg x y => EncodesItsRow.orReg x y
  | .andReg x y => EncodesItsRow.andReg x y
  | .xorReg x y => EncodesItsRow.xorReg x y
  | .addReg x y => EncodesItsRow.addReg x y
  | .subReg x y => EncodesItsRow.subReg x y
  | .shr x y => EncodesItsRow.shr x y
  | .subnReg x y => EncodesItsRow.subnReg x y
  | .shl x y => EncodesItsRow.shl x y
  | .sneReg x y => EncodesItsRow.sneReg x y
  | .ldI nnn => EncodesItsRow.ldI nnn
  | .jpV0 nnn => EncodesItsRow.jpV0 nnn
  | .rnd x kk => EncodesItsRow.rnd x kk
  | .drw x y n => EncodesItsRow.drw x y n
  | .skp x => EncodesItsRow.skp x
  | .sknp x => EncodesItsRow.sknp x
  | .ldVxDt x => EncodesItsRow.ldVxDt x
  | .ldVxK x => EncodesItsRow.ldVxK x
  | .ldDtVx x => EncodesItsRow.ldDtVx x
  | .ldStVx x => EncodesItsRow.ldStVx x
  | .addI x => EncodesItsRow.addI x
  | .ldF x => EncodesItsRow.ldF x
  | .ldB x => EncodesItsRow.ldB x
  | .storeRegs x => EncodesItsRow.storeRegs x
  | .loadRegs x => EncodesItsRow.loadRegs x

end Sys2Proof.Laws
end

