-- ==== Sys2Proof/Laws/Step.lean ====
section
/-! SUPPORT. The instruction step and the iteration, by their cases. -/

namespace Sys2Proof.Laws
open Sys2Proof Sys2Proof.Machine

variable {s t : State}

@[simp] theorem mapNext_next (f : State → State) (s : State) : mapNext f (.next s) = .next (f s) := rfl

theorem mapNext_eq_next {f : State → State} {r : Result} (h : mapNext f r = .next t) :
    ∃ u, r = .next u ∧ t = f u := by
  cases r with
  | next u => cases h; exact ⟨u, rfl, rfl⟩
  | fault r => cases h
  | refused r => cases h

theorem execute_ok {w : Word} {i : Instr} (h : decodeWord w = .ok i) : execute w s = exec i s := by
  simp [execute, h]

/-- What an instruction step can do (R404 to R406). -/
theorem instrStep_cases (h : instrStep s = .next t) :
    (s.execState = .halted ∧ t = s) ∨
    (∃ r, s.execState = .waitingForKey r ∧ t = resolveWait r s) ∨
    (s.execState = .running ∧ 0xFFE < s.pc.toNat ∧
      t = raiseFault .fetchRange s.pc none (some s.pc.toNat) s) ∨
    (s.execState = .running ∧ s.pc.toNat ≤ 0xFFE ∧ ∃ e,
      decodeWord (Memory.readWord s.mem s.pc.toNat) = .error e ∧
      t = raiseAnomaly (.unrecognized (instrPc (advance s)) (Memory.readWord s.mem s.pc.toNat)) (advance s)) ∨
    (s.execState = .running ∧ s.pc.toNat ≤ 0xFFE ∧ ∃ i,
      decodeWord (Memory.readWord s.mem s.pc.toNat) = .ok i ∧ exec i (advance s) = .next t) := by
  unfold instrStep at h
  cases hs : s.execState with
  | halted => rw [hs] at h; cases h; exact .inl ⟨rfl, rfl⟩
  | waitingForKey r => rw [hs] at h; cases h; exact .inr (.inl ⟨r, rfl, rfl⟩)
  | running =>
    simp only [hs, fetchExecute] at h
    split_ifs at h with hp
    · cases h; exact .inr (.inr (.inl ⟨rfl, hp, rfl⟩))
    · have hp' : s.pc.toNat ≤ 0xFFE := Nat.le_of_not_lt hp
      cases hd : decodeWord (Memory.readWord s.mem s.pc.toNat) with
      | error e =>
        simp only [execute, hd] at h; cases h
        exact .inr (.inr (.inr (.inl ⟨rfl, hp', e, rfl, rfl⟩)))
      | ok i => rw [execute_ok hd] at h; exact .inr (.inr (.inr (.inr ⟨rfl, hp', i, rfl, h⟩)))

/-- What a step can do (R400 to R402). -/
theorem step_cases (h : step s = .next t) :
    (s.scheduler = .stopped ∧ t = s) ∨
    (s.scheduler = .iterating ∧ (inputNow s).cont = false ∧
      t = consumeInput (stopScheduler (clearOutputs s))) ∨
    (s.scheduler = .iterating ∧ (inputNow s).cont = true ∧ ∃ u,
      ((fireInstr s = true ∧ ∃ w, instrStep (clearOutputs s) = .next w ∧
          u = stampInstr (inputNow s).clock w) ∨
        (fireInstr s = false ∧ u = clearOutputs s)) ∧
      t = consumeInput (timerPart (fireTimer s) (inputNow s).clock u)) := by
  unfold step iteration at h
  cases hs : s.scheduler with
  | stopped => rw [hs] at h; cases h; exact .inl ⟨rfl, rfl⟩
  | iterating =>
    simp only [hs] at h
    cases hc : (inputNow s).cont with
    | false => simp only [hc] at h; cases h; exact .inr (.inl ⟨rfl, rfl, rfl⟩)
    | true =>
      simp only [hc, if_true] at h
      obtain ⟨u, hu, rfl⟩ := mapNext_eq_next h
      refine .inr (.inr ⟨rfl, rfl, u, ?_, rfl⟩)
      unfold instrPart at hu
      cases hf : fireInstr s with
      | false => simp only [hf] at hu; cases hu; exact .inr ⟨rfl, rfl⟩
      | true =>
        simp only [hf, if_true] at hu
        obtain ⟨w, hw, rfl⟩ := mapNext_eq_next hu
        exact .inl ⟨rfl, w, hw, rfl⟩

/-- A step that iterates, from the outcome of its instruction step. -/
theorem step_iterates {u : State} (hs : s.scheduler = .iterating) (hc : (inputNow s).cont = true)
    (hu : instrPart s = .next u) :
    step s = .next (consumeInput (timerPart (fireTimer s) (inputNow s).clock u)) := by
  simp [step, iteration, hs, hc, hu]

/-- An instruction step leaves the model's own fields and the timestamps alone. -/
theorem instrStep_keeps (h : instrStep s = .next t) :
    t.inputs = s.inputs ∧ t.tick = s.tick ∧ t.tTimer = s.tTimer ∧ t.tInstr = s.tInstr ∧
      t.params = s.params ∧ t.scheduler = s.scheduler ∧ t.out.frame = s.out.frame := by
  rcases instrStep_cases h with ⟨-, rfl⟩ | ⟨r, -, rfl⟩ | ⟨-, -, rfl⟩ | ⟨-, -, e, -, rfl⟩ | ⟨-, -, i, -, h⟩
  · simp
  · unfold resolveWait; split <;> simp
  · simp
  · simp
  · have := exec_keeps h; simp at this; tauto

/-- A timer step leaves the model's own fields and the timestamps alone. -/
theorem timerStep_keeps (s : State) :
    (timerStep s).inputs = s.inputs ∧ (timerStep s).tick = s.tick ∧ (timerStep s).params = s.params := by
  unfold timerStep; split <;> simp

/-- An iteration driven by the fire flags, without an instruction step (R402): the timer step or nothing. -/
theorem step_without_instr {x : HostInput} {rest : List HostInput} {ft : Bool}
    (hs : s.scheduler = .iterating) (hi : s.inputs = x :: rest) (hc : x.cont = true)
    (hf : x.clock = .fire false ft) :
    step s = .next (consumeInput (if ft then timerStep (clearOutputs s) else clearOutputs s)) := by
  have now : inputNow s = x := by simp [inputNow, hi]
  have instr : instrPart s = .next (clearOutputs s) := by simp [instrPart, fireInstr, now, hf]
  rw [step_iterates hs (now ▸ hc) instr]
  cases ft <;> simp [fireTimer, now, hf, timerPart, stampTimer]

/-- An iteration driven by the fire flags in a wait without a key press (R520): the timer step or nothing. -/
theorem step_in_wait {x : HostInput} {rest : List HostInput} {fi ft : Bool} {r : RegIx}
    (hs : s.scheduler = .iterating) (he : s.execState = .waitingForKey r) (hi : s.inputs = x :: rest)
    (hc : x.cont = true) (hk : x.keyPress = none) (hf : x.clock = .fire fi ft) :
    step s = .next (consumeInput (if ft then timerStep (clearOutputs s) else clearOutputs s)) := by
  have now : inputNow s = x := by simp [inputNow, hi]
  have instr : instrPart s = .next (clearOutputs s) := by
    have wait : instrStep (clearOutputs s) = .next (clearOutputs s) := by
      have he' : (clearOutputs s).execState = .waitingForKey r := he
      simp only [instrStep, he']
      rw [resolveWait_none (by simp [now, hk])]
    cases fi <;> simp [instrPart, fireInstr, now, hf, wait, stampInstr]
  rw [step_iterates hs (now ▸ hc) instr]
  cases ft <;> simp [fireTimer, now, hf, timerPart, stampTimer]

@[simp] theorem hostInputs_zero (h : Nat → HostInput) (n : Nat) : hostInputs h n 0 = [] := rfl

theorem hostInputs_succ (h : Nat → HostInput) (n k : Nat) :
    hostInputs h n (k + 1) = h n :: hostInputs h (n + 1) k := rfl

/-- A run of one more step. -/
theorem run_succ (k : Nat) (h : step s = .next t) :
    Sys2Proof.core.run (k + 1) s = Sys2Proof.core.run k t := by
  have h' : Sys2Proof.core.step s = .next t := h
  simp only [Host.Core.run, h']

end Sys2Proof.Laws
end

