-- ==== Sys2Proof/Tests/Slice0.lean ====
section
/-! SUPPORT. Tests of the model on one step each, and the witnesses of the obligations' hypotheses. The
expected results are those of the spec's vectors (95_test_vectors.md), whose numbers the test names carry;
words are written out from the patterns of R310. -/

set_option Elab.async false

namespace Sys2Proof.Tests

open Sys2Proof Sys2Proof.Machine Sys2Proof.Claims

/-! ## Helpers -/

/-- The inputs of one iteration in the abstract form of R402. -/
def fires (instr timer : Bool) (keys : BitVec 16 := 0) (press : Option (Fin 16) := none) (rand : Byte := 0) :
    HostInput :=
  ⟨true, .fire instr timer, keys, press, rand⟩

/-- The inputs of one iteration that reads the clock. -/
def reads (now : Nat) : HostInput := ⟨true, .now now, 0, none, 0⟩

/-- Write registers. -/
def withV (vs : List (RegIx × Byte)) (s : State) : State := vs.foldl (fun s p => setV s p.1 p.2) s

/-- The reset state with word `w` at address `a`, PC there, one scripted iteration that fires an
instruction step, and the registers `vs`. -/
def prog (w : Word) (vs : List (RegIx × Byte) := []) (a : Nat := 0x200) : State :=
  withV vs { State.reset with
    mem := Memory.writeBytes [] a [hiByte w, loByte w]
    pc := BitVec.ofNat 16 a
    inputs := [fires true false] }

/-- The state after one step, seen through `f`. -/
def sees {α : Type} (s : State) (f : State → α) : Option α :=
  match step s with
  | .next t => some (f t)
  | _ => none

/-- Bytes of memory from `a` on. -/
def bytes (s : State) (a n : Nat) : List Byte := (List.range n).map fun k => Memory.read s.mem (a + k)

/-- The coordinates of the pixels that are on, in the order of FRAME. -/
def pixelsOn (s : State) : List (Nat × Nat) :=
  ((List.range 2048).filter fun k => s.disp.getLsbD k).map fun k => (k % 64, k / 64)

/-- Registers Vx and VF. -/
def vAndFlag (x : RegIx) (s : State) : Byte × Byte := (getV s x, getV s 15)

/-- The code of the fault record. -/
def faultCode (s : State) : Option FaultCode := s.fault.map (·.code)

/-! ## Well-formedness: the image check (R702; vectors G1 and G2) -/

theorem test_image_too_long_is_ill_formed : imageWellFormed (List.replicate 3585 0#8) = false := by decide +kernel
theorem test_image_of_full_size_is_well_formed : imageWellFormed (List.replicate 3584 0#8) = true := by decide +kernel
theorem test_empty_image_is_well_formed : imageWellFormed [] = true := by decide
/-- The checks of the fields refuse a value one past each field's range. -/
theorem test_field_checks_refuse : fitsNibble 16 = false ∧ fitsByte 256 = false ∧ fitsAddr12 4096 = false := by decide
theorem test_field_checks_accept : fitsNibble 15 = true ∧ fitsByte 255 = true ∧ fitsAddr12 4095 = true := by decide
theorem test_instruction_is_well_formed : (Instr.drw 15 15 15).wellFormed = true := by decide

/-- The numeric codes of R613 and R621. -/
theorem test_report_codes :
    [Anomaly.unrecognized 0 0, .keyUnmapped 0 0].map Anomaly.code = [1, 2] ∧
    [FaultCode.fetchRange, .memRange, .stackOverflow, .stackUnderflow].map FaultCode.number = [1, 2, 3, 4] := by decide

/-! ## Decoding: every row of R310 on a word written out bit by bit -/

theorem test_decode_cls : decodeWord 0b0000000011100000#16 = .ok (.cls) := by decide
theorem test_decode_ret : decodeWord 0b0000000011101110#16 = .ok (.ret) := by decide
theorem test_decode_jp : decodeWord 0b0001101010111100#16 = .ok (.jp 0xABC) := by decide
theorem test_decode_call : decodeWord 0b0010111111111111#16 = .ok (.call 0xFFF) := by decide
theorem test_decode_se_imm : decodeWord 0b0011111100010000#16 = .ok (.seImm 15 0x10) := by decide
theorem test_decode_sne_imm : decodeWord 0b0100001100010000#16 = .ok (.sneImm 3 0x10) := by decide
theorem test_decode_se_reg : decodeWord 0b0101000100100000#16 = .ok (.seReg 1 2) := by decide
theorem test_decode_ld_imm : decodeWord 0b0110000000000101#16 = .ok (.ldImm 0 5) := by decide
theorem test_decode_add_imm : decodeWord 0b0111000111111111#16 = .ok (.addImm 1 0xFF) := by decide
theorem test_decode_ld_reg : decodeWord 0b1000000100100000#16 = .ok (.ldReg 1 2) := by decide
theorem test_decode_or : decodeWord 0b1000000100100001#16 = .ok (.orReg 1 2) := by decide
theorem test_decode_and : decodeWord 0b1000000100100010#16 = .ok (.andReg 1 2) := by decide
theorem test_decode_xor : decodeWord 0b1000000100100011#16 = .ok (.xorReg 1 2) := by decide
theorem test_decode_add_reg : decodeWord 0b1000111100010100#16 = .ok (.addReg 15 1) := by decide
theorem test_decode_sub_reg : decodeWord 0b1000000111110101#16 = .ok (.subReg 1 15) := by decide
theorem test_decode_shr : decodeWord 0b1000000100100110#16 = .ok (.shr 1 2) := by decide
theorem test_decode_subn : decodeWord 0b1000000000010111#16 = .ok (.subnReg 0 1) := by decide
theorem test_decode_shl : decodeWord 0b1000000100001110#16 = .ok (.shl 1 0) := by decide
theorem test_decode_sne_reg : decodeWord 0b1001000100100000#16 = .ok (.sneReg 1 2) := by decide
theorem test_decode_ld_i : decodeWord 0b1010001100000000#16 = .ok (.ldI 0x300) := by decide
theorem test_decode_jp_v0 : decodeWord 0b1011001000001010#16 = .ok (.jpV0 0x20A) := by decide
theorem test_decode_rnd : decodeWord 0b1100001100001111#16 = .ok (.rnd 3 0x0F) := by decide
theorem test_decode_drw : decodeWord 0b1101001101000101#16 = .ok (.drw 3 4 5) := by decide
theorem test_decode_skp : decodeWord 0b1110010110011110#16 = .ok (.skp 5) := by decide
theorem test_decode_sknp : decodeWord 0b1110010110100001#16 = .ok (.sknp 5) := by decide
theorem test_decode_ld_vx_dt : decodeWord 0b1111001100000111#16 = .ok (.ldVxDt 3) := by decide
theorem test_decode_ld_vx_k : decodeWord 0b1111001000001010#16 = .ok (.ldVxK 2) := by decide
theorem test_decode_ld_dt_vx : decodeWord 0b1111000100010101#16 = .ok (.ldDtVx 1) := by decide
theorem test_decode_ld_st_vx : decodeWord 0b1111001000011000#16 = .ok (.ldStVx 2) := by decide
theorem test_decode_add_i : decodeWord 0b1111001000011110#16 = .ok (.addI 2) := by decide
theorem test_decode_ld_f : decodeWord 0b1111000100101001#16 = .ok (.ldF 1) := by decide
theorem test_decode_ld_b : decodeWord 0b1111000000110011#16 = .ok (.ldB 0) := by decide
theorem test_decode_store_regs : decodeWord 0b1111111001010101#16 = .ok (.storeRegs 14) := by decide
theorem test_decode_load_regs : decodeWord 0b1111001001100101#16 = .ok (.loadRegs 2) := by decide

/-- Words that match no row (vectors A13, F1 to F9, and R321). -/
theorem test_decode_unlisted :
    [0x0000, 0x0123, 0x00E1, 0x00FF, 0x5121, 0x8008, 0x800F, 0x9121, 0xE000, 0xF000].map
      (fun n => (decodeTableWord 16 n)) = List.replicate 10 none := by decide
theorem test_decode_names_the_word : decodeWord 0x8018#16 = .error (.unrecognized 0x8018#16) := by decide
theorem test_decode_one_byte : decodeBytes [0x12] = .error .truncated := by decide
/-- The high byte comes first (R300). -/
theorem test_decode_bytes : decodeBytes [0x12, 0x08, 0xAA] = .ok (.jp 0x208, [0xAA]) := by decide
theorem test_decode_table_word : decodeTableWord 16 0xD345 = some (.drw 3 4 5) := by decide
theorem test_encode_words :
    encode (.storeRegs 1) = 0xF155 ∧ encode (.call 0x210) = 0x2210 ∧ encode (.shl 15 0) = 0x8F0E := by decide

/-! ## One step of every instruction -/

theorem test_A1_jp :
    sees (prog 0x1204 [] 0x20A) (·.pc) = some 0x204 := by decide +kernel
theorem test_A2_call :
    sees (prog 0x2210 [] 0x202) (fun t => (t.stack[0], t.sp, t.pc)) = some (0x204, 1, 0x210) := by decide +kernel
theorem test_A6_call_overflow :
    sees { prog 0x2300 with sp := 16 } (fun t => (t.fault, t.pc, t.sp)) =
      some (some ⟨.stackOverflow, 0x200, some 0x2300, none⟩, 0x202, 16) := by decide +kernel
theorem test_A3_ret :
    sees { prog 0x00EE [] 0x216 with sp := 1, stack := (Vector.replicate 16 0#16).set 0 0x204 }
      (fun t => (t.sp, t.pc, t.stack[0])) = some (0, 0x204, 0x204) := by decide +kernel
theorem test_A4_ret_underflow :
    sees (prog 0x00EE) (fun t => (t.execState, t.fault, t.pc, t.sp)) =
      some (.halted, some ⟨.stackUnderflow, 0x200, some 0x00EE, none⟩, 0x202, 0) := by decide +kernel
theorem test_A7_se_imm :
    sees (prog 0x3310 [(3, 0x10)]) (·.pc) = some 0x204 := by decide +kernel
theorem test_A8_se_imm :
    sees (prog 0x3310 [(3, 0x11)]) (·.pc) = some 0x202 := by decide +kernel
theorem test_A9_sne_imm :
    sees (prog 0x4310 [(3, 0x10)]) (·.pc) = some 0x202 := by decide +kernel
theorem test_A10_sne_imm :
    sees (prog 0x4310 [(3, 0x11)]) (·.pc) = some 0x204 := by decide +kernel
theorem test_A11_se_reg :
    sees (prog 0x5120 [(1, 7), (2, 7)]) (·.pc) = some 0x204 := by decide +kernel
theorem test_se_reg_differ :
    sees (prog 0x5120 [(1, 7), (2, 8)]) (·.pc) = some 0x202 := by decide +kernel
theorem test_A14_sne_reg :
    sees (prog 0x9120 [(1, 7), (2, 8)]) (·.pc) = some 0x204 := by decide +kernel
theorem test_A15_sne_reg :
    sees (prog 0x9550 [(5, 7)]) (·.pc) = some 0x202 := by decide +kernel
theorem test_A16_jp_v0 :
    sees (prog 0xB20A [(0, 4)]) (·.pc) = some 0x20E := by decide +kernel
theorem test_A17_jp_v0 :
    sees (prog 0xBFFF [(0, 0xFF)]) (·.pc) = some 0x10FE := by decide +kernel
theorem test_B1_ld_imm :
    sees (prog 0x6005) (getV · 0) = some 0x05 := by decide +kernel
theorem test_B2_ld_imm :
    sees (prog 0x6FAA) (getV · 15) = some 0xAA := by decide +kernel
theorem test_B3_add_imm :
    sees (prog 0x71FF [(1, 5)]) (vAndFlag 1) = some (0x04, 0) := by decide +kernel
theorem test_B4_add_imm :
    sees (prog 0x7101 [(1, 0xFF)]) (vAndFlag 1) = some (0x00, 0) := by decide +kernel
theorem test_B5_ld_reg :
    sees (prog 0x8120 [(2, 0x33)]) (getV · 1) = some 0x33 := by decide +kernel
theorem test_B6_or :
    sees (prog 0x8121 [(1, 0x0F), (2, 0xF0), (15, 0x55)]) (vAndFlag 1) = some (0xFF, 0x55) := by decide +kernel
theorem test_B7_and :
    sees (prog 0x8122 [(1, 0x3C), (2, 0x0F)]) (getV · 1) = some 0x0C := by decide +kernel
theorem test_B8_xor :
    sees (prog 0x8123 [(1, 0x3C), (2, 0x0F)]) (getV · 1) = some 0x33 := by decide +kernel
theorem test_B22_add_reg :
    sees (prog 0x8014 [(0, 0x80), (1, 0x80)]) (vAndFlag 0) = some (0x00, 1) := by decide +kernel
theorem test_B25_add_reg_vf :
    sees (prog 0x8F14 [(15, 0x10), (1, 0x20)]) (getV · 15) = some 0x00 := by decide +kernel
theorem test_B30_sub_reg :
    sees (prog 0x8015 [(0, 7), (1, 7)]) (vAndFlag 0) = some (0x00, 0) := by decide +kernel
theorem test_B34_sub_reg_vf :
    sees (prog 0x81F5 [(1, 9), (15, 1)]) (vAndFlag 1) = some (0x08, 1) := by decide +kernel
theorem test_B38_shr :
    sees (prog 0x8126 [(1, 4), (2, 0xFF)]) (fun t => (getV t 1, getV t 15, getV t 2)) = some (0x02, 0, 0xFF) := by decide +kernel
theorem test_B39_shr_vf :
    sees (prog 0x8F06 [(15, 3)]) (getV · 15) = some 0x01 := by decide +kernel
theorem test_B42_subn :
    sees (prog 0x8017 [(0, 5), (1, 3)]) (vAndFlag 0) = some (0xFE, 0) := by decide +kernel
theorem test_B44_subn_vf :
    sees (prog 0x8F17 [(15, 1), (1, 5)]) (getV · 15) = some 0x01 := by decide +kernel
theorem test_B45_shl :
    sees (prog 0x810E [(1, 0x81)]) (vAndFlag 1) = some (0x02, 1) := by decide +kernel
theorem test_B49_shl_vf :
    sees (prog 0x8F0E [(15, 0x40)]) (getV · 15) = some 0x00 := by decide +kernel
theorem test_B11_rnd :
    sees { prog 0xC30F with inputs := [fires true false (rand := 0xA7)] } (getV · 3) = some 0x07 := by decide +kernel
theorem test_C1_ld_i :
    sees (prog 0xA300) (·.i) = some 0x300 := by decide +kernel
theorem test_C3_add_i :
    sees { prog 0xF21E [(2, 1)] with i := 0x0FFF } (fun t => (t.i, t.execState)) = some (0x1000, .running) := by decide +kernel
theorem test_C4_add_i :
    sees { prog 0xF21E [(2, 2)] with i := 0xFFFF } (·.i) = some 0x0001 := by decide +kernel
theorem test_C5_ld_f :
    sees (prog 0xF129 [(1, 3)]) (·.i) = some 0x000F := by decide +kernel
theorem test_C8_ld_f :
    sees (prog 0xF129 [(1, 0xFF)]) (·.i) = some 0x04FB := by decide +kernel
theorem test_C9_ld_b :
    sees { prog 0xF033 [(0, 0xEA)] with i := 0x300 } (fun t => (bytes t 0x300 3, t.i)) = some ([2, 3, 4], 0x300) := by decide +kernel
theorem test_C13_ld_b_range :
    sees { prog 0xF033 [(0, 0xEA)] with i := 0xFFE } (fun t => (t.fault, bytes t 0xFFE 2)) =
      some (some ⟨.memRange, 0x200, some 0xF033, some 0x1000⟩, [0, 0]) := by decide +kernel
theorem test_C14_store_regs :
    sees { prog 0xF255 [(0, 1), (1, 2), (2, 3), (3, 9)] with i := 0x400 } (fun t => (bytes t 0x400 4, t.i)) =
      some ([1, 2, 3, 0], 0x400) := by decide +kernel
theorem test_C17_store_regs_range :
    sees { prog 0xFF55 [(0, 1)] with i := 0xFF1 } (fun t => (faultCode t, bytes t 0xFF1 1)) = some (some .memRange, [0]) := by decide +kernel
theorem test_C19_load_regs :
    sees { prog 0xF265 [(3, 9)] with i := 0x300, mem := Memory.writeBytes (prog 0xF265).mem 0x300 [2, 3, 4, 5] }
      (fun t => (getV t 0, getV t 1, getV t 2, getV t 3)) = some (2, 3, 4, 9) := by decide +kernel
theorem test_C21_load_regs_range :
    sees { prog 0xF065 [(0, 7)] with i := 0x1000 } (fun t => (t.fault, getV t 0)) =
      some (some ⟨.memRange, 0x200, some 0xF065, some 0x1000⟩, 7) := by decide +kernel
theorem test_D1_cls :
    sees { prog 0x00E0 [(15, 1)] with disp := BitVec.allOnes 2048 } (fun t => (t.disp, getV t 15)) = some (0, 1) := by decide +kernel
theorem test_D4_drw_wraps_columns :
    sees { prog 0xD011 [(0, 62), (1, 31)] with i := 0x300, mem := Memory.write (prog 0xD011).mem 0x300 0xFF }
      (fun t => (pixelsOn t, getV t 15)) =
      some ([(0, 31), (1, 31), (2, 31), (3, 31), (4, 31), (5, 31), (62, 31), (63, 31)], 0) := by decide +kernel
theorem test_D7_drw_collides :
    sees { prog 0xD011 with i := 0x300, disp := 1, mem := Memory.write (prog 0xD011).mem 0x300 0xC0 }
      (fun t => (pixelsOn t, getV t 15)) = some ([(1, 0)], 1) := by decide +kernel
theorem test_E1_skp :
    sees { prog 0xE59E [(5, 0xA)] with inputs := [fires true false (keys := 0x0400)] } (·.pc) = some 0x204 := by decide +kernel
theorem test_E3_skp_unmapped :
    sees (prog 0xE59E [(5, 0x10)]) (fun t => (t.out.anomaly, t.pc)) = some (some (.keyUnmapped 0x200 0x10), 0x202) := by decide +kernel
theorem test_E4_sknp :
    sees (prog 0xE5A1 [(5, 0xA)]) (·.pc) = some 0x204 := by decide +kernel
theorem test_E6_sknp_unmapped :
    sees (prog 0xE5A1 [(5, 0x10)]) (fun t => (t.out.anomaly, t.pc)) = some (some (.keyUnmapped 0x200 0x10), 0x202) := by decide +kernel
theorem test_E16_ld_vx_dt :
    sees { prog 0xF307 with dt := 2, inputs := [fires true true] } (fun t => (getV t 3, t.dt)) = some (2, 1) := by decide +kernel
theorem test_E17_ld_dt_vx :
    sees { prog 0xF115 [(1, 3)] with dt := 9, inputs := [fires true true] } (·.dt) = some 2 := by decide +kernel
theorem test_E9_ld_st_vx :
    sees (prog 0xF218 [(2, 0x10)]) (·.st) = some 0x10 := by decide +kernel
theorem test_E10_ld_vx_k :
    sees (prog 0xF00A [(0, 0x55)] 0x204) (fun t => (t.execState, t.pc, getV t 0)) =
      some (.waitingForKey 0, 0x206, 0x55) := by decide +kernel

/-! ## The cycle, the scheduler, waits and reset -/

theorem test_F1_unrecognized :
    sees (prog 0x0000) (fun t => (t.out.anomaly, t.pc)) = some (some (.unrecognized 0x200 0x0000), 0x202) := by decide +kernel
theorem test_F10_last_fetch :
    sees (prog 0x6001 [] 0xFFE) (fun t => (getV t 0, t.pc)) = some (1, 0x1000) := by decide +kernel
theorem test_F12_fetch_range :
    sees { prog 0 with pc := 0xFFF } (fun t => (t.execState, t.fault, t.pc)) =
      some (.halted, some ⟨.fetchRange, 0xFFF, none, some 0xFFF⟩, 0xFFF) := by decide +kernel
theorem test_A20_odd_pc :
    sees { prog 0x1208 [] 0x201 with st := 0 } (·.pc) = some 0x208 := by decide +kernel
theorem test_F13_halted :
    sees { prog 0x6001 with execState := .halted, dt := 5, inputs := [fires true true] }
      (fun t => (getV t 0, t.pc, t.dt, t.out.frame)) = some (0, 0x200, 5, none) := by decide +kernel
theorem test_F14_fault_suppresses_timer :
    sees { prog 0x00EE with dt := 5, inputs := [fires true true] } (fun t => (faultCode t, t.dt)) =
      some (some .stackUnderflow, 5) := by decide +kernel
theorem test_E11_wait_continues :
    sees { prog 0x6001 with execState := .waitingForKey 0 } (fun t => (t.execState, t.pc, getV t 0)) =
      some (.waitingForKey 0, 0x200, 0) := by decide +kernel
theorem test_E13_wait_resolved :
    sees { prog 0x6001 with execState := .waitingForKey 15, inputs := [fires true false (press := some 3)] }
      (fun t => (t.execState, t.pc, getV t 15)) = some (.running, 0x200, 3) := by decide +kernel
theorem test_E14_timer_in_wait :
    sees { prog 0 with execState := .waitingForKey 2, dt := 5, st := 1, inputs := [fires false true] }
      (fun t => (t.execState, t.dt, t.st, t.out.frame.isSome)) = some (.waitingForKey 2, 4, 0, true) := by decide +kernel
theorem test_D13_frame :
    sees { prog 0 with disp := BitVec.twoPow 2048 0 ||| BitVec.twoPow 2048 2047, inputs := [fires false true] }
      (fun t => t.out.frame.map fun f => (f[0]?, f[1]?, f[2046]?, f[2047]?)) =
      some (some (some 0xFFFFFFFF, some 0, some 0, some 0xFFFFFFFF)) := by decide +kernel
/-- Vector H: at 2.0 ms the instruction cadence does not fire, just after it does (strict >). -/
theorem test_H_strictly_more :
    (sees { prog 0x6001 with inputs := [reads 6000] } (fun t => (getV t 0, t.tInstr)) = some (0, 0)) ∧
    (sees { prog 0x6001 with inputs := [reads 6001] } (fun t => (getV t 0, t.tInstr)) = some (1, 6001)) := by decide +kernel
theorem test_H_both :
    sees { prog 0x6001 with tInstr := 7500, inputs := [reads 50100] } (fun t => (getV t 0, t.tInstr, t.tTimer)) =
      some (1, 50100, 50100) := by decide +kernel
theorem test_stop_when_continue_is_false :
    sees { prog 0x6001 with inputs := [{ fires true true with cont := false }] }
      (fun t => (t.scheduler, getV t 0, t.pc)) = some (.stopped, 0, 0x200) := by decide +kernel
/-- STATUS shows the fault record in Halted only (R157). -/
theorem test_status :
    (sees (prog 0x00EE) status = some (.halted, some ⟨.stackUnderflow, 0x200, some 0x00EE, none⟩)) ∧
    sees (prog 0x6001) status = some (.running, none) := by decide +kernel
/-- Vector G4: the first glyph of the default font, and 0 above the font. -/
theorem test_G4_reset_memory :
    (bytes State.reset 0 5, bytes State.reset 0x50 2) = ([0xF0, 0x90, 0x90, 0x90, 0xF0], [0, 0]) := by decide +kernel
theorem test_reset_registers :
    (State.reset.pc, State.reset.sp, State.reset.execState, State.reset.fault) = (0x200, 0, .running, none) := by decide +kernel
/-- A step right after reset runs the word that `withFetchWord` places. -/
theorem test_with_fetch_word :
    sees (State.reset.withFetchWord 16 0x6105) (getV · 1) = some 5 := by decide +kernel
theorem test_with_fetch_word_from_halted :
    sees ({ State.reset with execState := .halted, pc := 0x1000, inputs := [{ fires false false with cont := false }] }.withFetchWord 16 0x6105)
      (getV · 1) = some 5 := by decide +kernel
/-- The memory list keeps its canonical form: writing back the reset value removes the entry. -/
theorem test_write_is_canonical :
    Memory.write (Memory.write [] 0x300 1) 0x300 0 = [] ∧
    Memory.writeBytes [] 0x300 [1, 2] = Memory.write (Memory.write [] 0x301 2) 0x300 1 := by decide +kernel

/-! ## Witnesses of the hypotheses of the obligations

One theorem for each statement with hypotheses, or for each of its clauses, at boundary values. -/

/-- Some next state of `i` from `s`, seen through `f`. -/
def execSees {α : Type} (i : Instr) (s : State) (f : State → α) : Option α :=
  match exec i s with
  | .next t => some (f t)
  | _ => none

/-- The fixed bits and the mask of each row that a statement names, on the word with every field bit 0 and on
the word with every field bit 1 (`RowDecodes`). -/
theorem witness_rows :
    (∀ r ∈ opcodeRows, r.pattern &&& r.mask = r.pattern) ∧
    (∀ r ∈ opcodeRows, (r.pattern ||| ~~~r.mask) &&& r.mask = r.pattern) := by decide

theorem witness_EncodeOfDecodedWordIsTheWord : decodeWord 0xDFFF#16 = .ok (.drw 15 15 15) := by decide

theorem witness_OpcodeRowsDoNotOverlap :
    (⟨0x8004, 0xF00F⟩ : OpcodeRow) ∈ opcodeRows ∧ (⟨0x8004, 0xF00F⟩ : OpcodeRow).matches 0x8FF4 = true := by
  decide

theorem witness_DecoderSelectsTheMatchingRow :
    decodeWord 0x8FFE#16 = .ok (.shl 15 15) ∧ decodeWord 0x8FFF#16 = .error (.unrecognized 0x8FFF#16) ∧
    ∀ r ∈ opcodeRows, r.matches 0x8FFF = false := by decide

theorem witness_InstructionIsTwoBytesHighByteFirst :
    decodeBytes [0xFF, 0x65, 0x12] = .ok (.loadRegs 15, [0x12]) := by decide

theorem witness_UnrecognizedWordRaisesAnomaly :
    (∀ r ∈ opcodeRows, 0x5121#16 &&& r.mask ≠ r.pattern) ∧ (∀ r ∈ opcodeRows, 0x0000#16 &&& r.mask ≠ r.pattern) := by
  decide

/-- At 0x200, and at 0xFFE, the last address that can be fetched from. -/
theorem witness_StepRunsTheDecodedInstruction :
    ∀ a ∈ [0x200, 0xFFE], let s := prog 0x6001 [] a
      s.scheduler = .iterating ∧ (inputNow s).cont = true ∧ fireInstr s = true ∧ s.execState = .running ∧
      s.pc.toNat ≤ 0xFFE ∧
      decodeWord (Memory.read s.mem s.pc.toNat ++ Memory.read s.mem (s.pc.toNat + 1)) = .ok (.ldImm 0 1) := by
  decide +kernel

theorem witness_FetchReadsTwoBytesAndAdvancesPc :
    ((prog 0x6001 [] 0xFFE).execState = .running ∧ (prog 0x6001 [] 0xFFE).pc.toNat ≤ 0xFFE) ∧
    ((prog 0x6001 [] 0xFFF).execState = .running ∧ 0xFFF ≤ (prog 0x6001 [] 0xFFF).pc.toNat) := by decide +kernel

theorem witness_IterationFollowsTheHostClock :
    ∀ now ∈ [0, 6000, 6001, 50000, 50001], ∃ s : State, ∃ h : HostInput,
      Iterates s h [] ∧ h.clock = .now now ∧ s.params.instrPeriod = 6000 ∧ s.tInstr = 0 ∧ s.tTimer = 0 :=
  fun now _ => ⟨{ State.reset with inputs := [reads now] }, reads now, ⟨rfl, rfl, rfl⟩, rfl, rfl, rfl, rfl⟩

theorem witness_IterationFollowsTheFireFlags :
    ∀ fi ft : Bool, ∃ s : State, ∃ h : HostInput, Iterates s h [] ∧ h.clock = .fire fi ft :=
  fun fi ft => ⟨{ State.reset with inputs := [fires fi ft] }, fires fi ft, ⟨rfl, rfl, rfl⟩, rfl⟩

theorem witness_SchedulerStopsWhenContinueIsFalse :
    let s : State := { State.reset with inputs := [{ fires true true with cont := false }] }
    s.scheduler = .iterating ∧ (inputNow s).cont = false := by decide

theorem witness_HaltedIsLeftOnlyByReset :
    sees (prog 0x00EE) (fun t => decide (t.execState = .halted)) = some true := by decide +kernel

/-- A fault, and an anomaly. -/
theorem witness_FaultsAndAnomaliesWriteNothingElse :
    execSees .ret State.reset (fun t => decide (t.fault ≠ none ∧ t.execState = .halted)) = some true ∧
    State.reset.fault = none ∧ State.reset.execState ≠ .halted ∧
    execSees (.sknp 0) (withV [(0, 0x10)] State.reset) (fun t => decide (t.out ≠ {})) = some true ∧
    (withV [(0, 0x10)] State.reset).out = {} := by decide +kernel

theorem witness_ReturnPopsTheStackIntoPc :
    0 < ({ State.reset with sp := 1 } : State).sp.val ∧ 0 < ({ State.reset with sp := 16 } : State).sp.val ∧
    State.reset.sp = 0 := by decide

theorem witness_CallPushesTheReturnAddress :
    State.reset.sp.val < 16 ∧ ({ State.reset with sp := 15 } : State).sp.val < 16 ∧
    ({ State.reset with sp := 16 } : State).sp.val = 16 := by decide

theorem witness_AddThenSubtractRestoresVx :
    (0 : RegIx) ≠ 15 ∧ (14 : RegIx) ≠ 15 ∧ (0 : RegIx) ≠ 14 ∧ ∃ t u : State,
      exec (.addReg 0 14) (withV [(0, 0xF0), (14, 0x20)] State.reset) = .next t ∧
      exec (.subReg 0 14) t = .next u :=
  ⟨by decide, by decide, by decide, _, _, rfl, rfl⟩

/-- A register destination, VF as a flag, and a block load up to V14. -/
theorem witness_RegistersOtherThanDestinationsAreUnchanged :
    (∃ t, exec (.ldImm 0 1) State.reset = .next t) ∧ ¬ writesRegister (.ldImm 0 1) 15 ∧
    (∃ t, exec (.addReg 0 1) State.reset = .next t) ∧ ¬ writesRegister (.addReg 0 1) 1 ∧
    (∃ t, exec (.loadRegs 14) State.reset = .next t) ∧ ¬ writesRegister (.loadRegs 14) 15 :=
  ⟨⟨_, rfl⟩, by simp [writesRegister], ⟨_, rfl⟩, by simp [writesRegister], ⟨_, rfl⟩, by simp [writesRegister]⟩

/-- Each kind of state is written by some instruction. -/
theorem witness_StateIsWrittenOnlyByItsWriters :
    execSees (.ldB 0) { withV [(0, 9)] State.reset with i := 0x300 }
      (fun t => decide (Memory.read t.mem 0x302 ≠ Memory.read State.reset.mem 0x302 ∧ t.mem ≠ State.reset.mem)) = some true ∧
    execSees (.ldI 5) State.reset (fun t => decide (t.i ≠ State.reset.i)) = some true ∧
    execSees (.call 5) State.reset (fun t => decide (t.stack ≠ State.reset.stack ∧ t.sp ≠ State.reset.sp)) = some true ∧
    execSees (.ldDtVx 0) (withV [(0, 9)] State.reset) (fun t => decide (t.dt ≠ State.reset.dt)) = some true ∧
    execSees (.ldStVx 0) (withV [(0, 9)] State.reset) (fun t => decide (t.st ≠ State.reset.st)) = some true ∧
    execSees (.drw 0 0 1) State.reset (fun t => decide (t.disp ≠ State.reset.disp)) = some true ∧
    execSees (.ldVxK 0) State.reset (fun t => decide (t.execState ≠ State.reset.execState)) = some true ∧
    execSees (.ldImm 3 1) State.reset (fun t => decide (getV t 3 ≠ getV State.reset 3)) = some true ∧
    execSees (.sneReg 0 1) (withV [(0, 9)] State.reset) (fun t => decide (t.pc ≠ State.reset.pc)) = some true ∧
    execSees .ret State.reset (fun t => decide (t.fault ≠ State.reset.fault)) = some true ∧
    execSees (.skp 0) (withV [(0, 0x10)] State.reset) (fun t => decide (t.out ≠ State.reset.out)) = some true := by
  decide +kernel

/-- The last three bytes of memory, and one address further; the largest I. -/
theorem witness_BcdStoresThreeDigitsAtI :
    Memory.wf State.reset.mem ∧ ({ State.reset with i := 0xFFD } : State).i.toNat + 2 < 4096 ∧
    4096 ≤ ({ State.reset with i := 0xFFE } : State).i.toNat + 2 ∧
    4096 ≤ ({ State.reset with i := 0xFFFF } : State).i.toNat + 2 := by decide

theorem witness_BlockStoreWritesV0ToVxAtI :
    Memory.wf State.reset.mem ∧ ({ State.reset with i := 0xFF0 } : State).i.toNat + (15 : RegIx).val < 4096 ∧
    4096 ≤ ({ State.reset with i := 0xFF1 } : State).i.toNat + (15 : RegIx).val ∧
    4096 ≤ ({ State.reset with i := 0x1000 } : State).i.toNat + (0 : RegIx).val := by decide

theorem witness_BlockLoadReadsV0ToVxAtI :
    ({ State.reset with i := 0xFFF } : State).i.toNat + (0 : RegIx).val < 4096 ∧
    4096 ≤ ({ State.reset with i := 0xFFF } : State).i.toNat + (1 : RegIx).val := by decide

theorem witness_BlockStoreThenLoadRestoresRegisters :
    Memory.wf State.reset.mem ∧ ({ State.reset with i := 0xFF0 } : State).i.toNat + (15 : RegIx).val < 4096 := by
  decide

/-- Stores that end at the last byte, and the last address that can be fetched from. -/
theorem witness_StoredBytesAreFetchedAtOnce :
    let s : State := { State.reset with i := 0xFFE }
    let u : State := { State.reset with i := 0xFFD }
    Memory.wf s.mem ∧ s.execState = .running ∧ 0xFFE ≤ 0xFFE ∧ s.i.toNat + (1 : RegIx).val < 4096 ∧
    (∃ t, exec (.storeRegs 1) s = .next t) ∧
    Memory.wf u.mem ∧ u.execState = .running ∧ u.i.toNat + 2 < 4096 ∧ ∃ t, exec (.ldB 1) u = .next t :=
  ⟨by decide, rfl, by decide, by decide, ⟨_, rfl⟩, by decide, rfl, by decide, _, rfl⟩

/-- The bytes after a store: before I, at I, at I + x, past it (x = 0 too), and the three digits. -/
theorem test_bytes_after_store :
    let s : State := { withV [(0, 0xEA), (1, 0x0B)] State.reset with i := 0x300 }
    [0x2FF, 0x300, 0x301, 0x302].map (byteAfterStore s 1) = [0, 0xEA, 0x0B, 0] ∧
    [0x2FF, 0x300, 0x301].map (byteAfterStore s 0) = [0, 0xEA, 0] ∧
    [0x2FF, 0x300, 0x301, 0x302, 0x303].map (byteAfterBcd s 0) = [0, 2, 3, 4, 0] := by decide +kernel

/-- No rows at the largest I; a sprite that ends at the last byte; one that ends one byte further. -/
theorem witness_DrawFlipsTheSpritesPixels :
    ((0 : Fin 16) = 0 ∨ ({ State.reset with i := 0xFFFF } : State).i.toNat + (0 : Fin 16).val ≤ 4096) ∧
    ({ State.reset with i := 0xFF1 } : State).i.toNat + (15 : Fin 16).val ≤ 4096 ∧
    (15 : Fin 16) ≠ 0 ∧ 4096 < ({ State.reset with i := 0xFF2 } : State).i.toNat + (15 : Fin 16).val := by decide

/-- Both outcomes of a draw of glyph 0 at (0, 0): the first draw meets pixels that are off. -/
theorem witness_DrawingTwiceRestoresTheDisplay :
    (0 : RegIx) ≠ 15 ∧ (1 : RegIx) ≠ 15 ∧ State.reset.i.toNat + (5 : Fin 16).val ≤ 4096 ∧
    (∃ t u, exec (.drw 0 1 5) State.reset = .next t ∧ exec (.drw 0 1 5) t = .next u) ∧
    (∀ px py, SpriteOn State.reset 0 1 5 px py → pixel State.reset.disp px py = false) ∧
    SpriteOn State.reset 0 1 5 0 0 :=
  ⟨by decide, by decide, by decide, ⟨_, _, rfl, rfl⟩, fun _ _ _ => BitVec.getLsbD_zero,
    ⟨0, 0, by decide, by decide, by decide, by decide, by decide⟩⟩

/-- Vx = 0xF is the last key, 0x10 the first value without one. -/
theorem witness_KeySkipsTestTheHeldKey :
    (getV (withV [(0, 0x0F)] State.reset) 0).toNat ≤ 0xF ∧ 0xF < (getV (withV [(0, 0x10)] State.reset) 0).toNat := by
  decide

theorem witness_KeyPressResolvesTheWait :
    let s : State := { State.reset with execState := .waitingForKey 15, inputs := [fires true false] }
    let t : State := { s with inputs := [fires true false (press := some 15)] }
    s.execState = .waitingForKey 15 ∧ (inputNow s).keyPress = none ∧
    t.execState = .waitingForKey 15 ∧ (inputNow t).keyPress = some 15 := by decide

theorem witness_WaitWithoutKeyPressNeverEnds :
    let s : State := { State.reset with execState := .waitingForKey 2, inputs := [fires true true, reads 9000] }
    s.execState = .waitingForKey 2 ∧ 2 ≤ s.inputs.length ∧ ∀ h ∈ s.inputs, h.keyPress = none := by decide

theorem witness_TimerStepCountsDownAndRenders :
    State.reset.execState ≠ .halted ∧
    ({ State.reset with execState := .waitingForKey 2, dt := 0xFF } : State).execState ≠ .halted ∧
    ({ State.reset with execState := .halted } : State).execState = .halted := by decide

/-- Each of the causes occurs. -/
theorem witness_FaultsComeOnlyFromTheirInstructions :
    State.reset.fault = none ∧ State.reset.out.anomaly = none ∧
    execSees (.loadRegs 0) { State.reset with i := 0x1000 } faultCode = some (some .memRange) ∧
    execSees (.call 0) { State.reset with sp := 16 } faultCode = some (some .stackOverflow) ∧
    execSees .ret State.reset faultCode = some (some .stackUnderflow) ∧
    execSees (.skp 0) (withV [(0, 0xFF)] State.reset) (·.out.anomaly) =
      some (some (.keyUnmapped 0x1FE 0xFF)) ∧
    (∃ t, execute 0x0123 State.reset = .next t ∧ t.out.anomaly = some (.unrecognized 0x1FE 0x0123)) :=
  ⟨rfl, rfl, by decide +kernel, by decide +kernel, by decide +kernel, by decide +kernel, _, rfl, rfl⟩

theorem witness_KeyPressIsIgnoredUnlessWaiting :
    (prog 0x6001).scheduler = .iterating ∧ (prog 0x6001).inputs = fires true false :: [] ∧
    ∀ r, (prog 0x6001).execState ≠ .waitingForKey r :=
  ⟨rfl, rfl, fun _ h => ExecState.noConfusion h⟩

theorem witness_PortsAreReadOnlyByTheirInstructions :
    (∀ x, Instr.ldVxK 3 ≠ .skp x) ∧ (∀ x, Instr.ldVxK 3 ≠ .sknp x) ∧ ∀ x kk, Instr.ldVxK 3 ≠ .rnd x kk := by
  simp

theorem witness_ResetSetsEveryPieceOfState :
    (List.replicate 3584 0xAA#8).length ≤ 3584 ∧ ([] : List Byte).length ≤ 3584 :=
  ⟨by rw [List.length_replicate], by decide⟩

theorem witness_OversizedImageIsRefused : 3584 < (List.replicate 3585 0#8).length := by
  rw [List.length_replicate]; decide

theorem witness_InvariantHoldsAtReset :
    ∃ t, boot (Vector.replicate 80 0#8) [0x12, 0x00] {} 7 [] = .next t := ⟨_, rfl⟩

theorem witness_EveryStepKeepsTheInvariant :
    let s : State := { State.reset with inputs := [fires true true] }
    s.Inv ∧ ∃ t, step s = .next t :=
  ⟨⟨Laws.wf_nil, by decide, by decide, by decide⟩, _, rfl⟩

/-- 5xyN and 9xyN with N other than 0, at the smallest and the largest N. -/
theorem witness_RegisterSkipsCompareVxWithVy :
    (0x5121#16 &&& 0xF000 = 0x5000 ∧ 0x5121#16 &&& 0x000F ≠ 0) ∧
    (0x9FFF#16 &&& 0xF000 = 0x9000 ∧ 0x9FFF#16 &&& 0x000F ≠ 0) := by decide

/-- A host that fires the two cadences by turns. -/
def turns (n : Nat) : HostInput := fires (n % 2 == 0) (n % 2 == 1)

theorem turns_fair : FairHost turns where
  flags _ := ⟨_, _, rfl⟩
  instr _ n := ⟨2 * n, by omega, by simp [turns, fires]⟩
  timer _ n := ⟨2 * n + 1, by omega, by simp [turns, fires, Nat.add_mod]⟩

theorem witness_FairHostFiresTheNextInstructionStep :
    FairHost turns ∧ (∀ n, (turns n).cont = true) ∧ State.reset.scheduler = .iterating :=
  ⟨turns_fair, fun _ => rfl, rfl⟩

theorem witness_FairHostRunsTheTimersOutInAWait :
    let s : State := { State.reset with execState := .waitingForKey 15, dt := 0xFF, st := 1 }
    FairHost turns ∧ (∀ n, (turns n).cont = true) ∧ (∀ n, (turns n).keyPress = none) ∧
    s.scheduler = .iterating ∧ s.execState = .waitingForKey 15 :=
  ⟨turns_fair, fun _ => rfl, fun _ => rfl, rfl, rfl⟩

end Sys2Proof.Tests
end

section
/-! The register frame of `exec` (R16, R100, R103): which registers a meaning leaves alone. -/

namespace Sys2Proof.Laws
open Sys2Proof Sys2Proof.Machine Sys2Proof.Claims

variable {i : Instr} {s t : State}

@[simp] theorem skipOnKey_getV (wanted : Bool) (k : Byte) (s : State) (j : RegIx) :
    getV (skipOnKey wanted k s) j = getV s j := by
  rcases skipOnKey_cases wanted k s with ⟨-, e⟩ | ⟨-, e⟩ <;> simp [e]

/-- The flag-last write keeps every register that is neither its destination nor VF. -/
theorem getV_setWithFlag_ne {x j : RegIx} (r f : Byte) (h : ¬ (j = x ∨ j = 15)) :
    getV (setWithFlag s x r f) j = getV s j := by
  rw [not_or] at h
  rw [getV_setWithFlag, if_neg h.2, if_neg h.1]

/-- A block load of V0 to Vx keeps the registers above Vx. -/
theorem getV_loadRegs_above {x j : RegIx} (h : ¬ j ≤ x) :
    getV (((List.finRange 16).take (x.val + 1)).foldl loadReg s) j = getV s j := by
  rw [Fin.le_def] at h
  rw [getV_loadRegs (x.val + 1) x.isLt j, if_neg (by omega)]

/-- A meaning changes no register but those that `writesRegister` gives to its instruction. -/
theorem exec_getV_of_not_writesRegister (h : exec i s = .next t) {j : RegIx}
    (hj : ¬ writesRegister i j) : getV t j = getV s j := by
  cases i
  case ldImm | addImm | ldReg | orReg | andReg | xorReg | rnd | ldVxDt =>
    cases h; exact getV_setV_ne _ _ hj
  case addReg | subReg | shr | subnReg | shl =>
    cases h; exact getV_setWithFlag_ne _ _ hj
  case drw =>
    rcases execDrw_cases h with ⟨-, rfl⟩ | ⟨-, -, rfl⟩
    · rw [getV_setV_ne _ _ hj, setDisp_getV]
    · exact instrFault_getV ..
  case loadRegs =>
    rcases execLoadRegs_cases h with ⟨-, rfl⟩ | ⟨-, rfl⟩
    · exact getV_loadRegs_above hj
    · exact instrFault_getV ..
  case ret => rcases execRet_cases h with ⟨-, rfl⟩ | ⟨-, rfl⟩ <;> simp
  case call => rcases execCall_cases h with ⟨_, rfl⟩ | ⟨-, rfl⟩ <;> simp
  case ldB => rcases execLdB_cases h with ⟨-, rfl⟩ | ⟨-, rfl⟩ <;> simp
  case storeRegs => rcases execStoreRegs_cases h with ⟨-, rfl⟩ | ⟨-, rfl⟩ <;> simp
  case skp | sknp => cases h; exact skipOnKey_getV ..
  case cls | jp | seImm | sneImm | seReg | sneReg | ldI | jpV0 | ldVxK | ldDtVx | ldStVx | addI | ldF =>
    -- each of these arms updates one field, and it is not the register file
    cases h; simp

end Sys2Proof.Laws

/-- Settles O30: the register frame of `exec`, by a case split over the instructions. -/
theorem registersOtherThanDestinationsAreUnchanged :
    Obligations.RegistersOtherThanDestinationsAreUnchanged := by
  unfold Obligations.RegistersOtherThanDestinationsAreUnchanged
  intro i j s t h hj
  exact Sys2Proof.Laws.exec_getV_of_not_writesRegister h hj
end

section
/-! The effects of the meanings (R100, R406): the record updates that `exec` can answer, each with the
instructions that make it, and from them the writers of each piece of state. -/

namespace Sys2Proof.Laws
open Sys2Proof Sys2Proof.Machine Sys2Proof.Claims

variable {i : Instr} {s t : State}

/-- `t` is what instruction `i` can make of `s`. Which registers a `registers` effect changes is
`exec_getV_of_not_writesRegister`'s to say. -/
inductive Effect (s : State) : Instr → State → Prop
  | registers {i : Instr} (v : Vector Byte 16) : Effect s i { s with v := v }
  | index {i : Instr} (a : Word) (hi : (∃ nnn, i = .ldI nnn) ∨ ∃ x, i = .addI x ∨ i = .ldF x) :
      Effect s i (setI s a)
  | jump (nnn : Addr12) : Effect s (.jp nnn) (setPc s (zextAddr nnn))
  | jumpV0 (nnn : Addr12) : Effect s (.jpV0 nnn) (setPc s (offsetTarget s nnn))
  | call (nnn : Addr12) (h : s.sp.val < 16) : Effect s (.call nnn) (setPc (push s s.pc h) (zextAddr nnn))
  | ret : Effect s .ret (setPc (pop s) (topOfStack s))
  | skip {i : Instr} (c : Bool)
      (hi : (∃ x kk, i = .seImm x kk ∨ i = .sneImm x kk) ∨ (∃ x y, i = .seReg x y ∨ i = .sneReg x y) ∨
        ∃ x, i = .skp x ∨ i = .sknp x) :
      Effect s i (skipIf c s)
  | anomaly {i : Instr} (a : Anomaly) (hi : ∃ x, i = .skp x ∨ i = .sknp x) : Effect s i (raiseAnomaly a s)
  | display {i : Instr} (d : Display) (v : Vector Byte 16) (hi : i = .cls ∨ ∃ x y n, i = .drw x y n) :
      Effect s i { s with disp := d, v := v }
  | store {i : Instr} (a : Nat) (bs : List Byte) (hi : ∃ x, i = .ldB x ∨ i = .storeRegs x) :
      Effect s i (setMem s (Memory.writeBytes s.mem a bs))
  | keyWait (x : RegIx) : Effect s (.ldVxK x) (setExec s (.waitingForKey x))
  | delayTimer (x : RegIx) : Effect s (.ldDtVx x) (setDt s (getV s x))
  | soundTimer (x : RegIx) : Effect s (.ldStVx x) (setSt s (getV s x))
  | fault {i : Instr} (code : FaultCode) (addr : Option Nat)
      (hi : i = .ret ∨ (∃ nnn, i = .call nnn) ∨ (∃ x y n, i = .drw x y n) ∨
        ∃ x, i = .ldB x ∨ i = .storeRegs x ∨ i = .loadRegs x) :
      Effect s i (instrFault code i addr s)

/-- A key test skips or raises the anomaly. -/
theorem effect_skipOnKey {wanted : Bool} {k : Byte} (hi : ∃ x, i = .skp x ∨ i = .sknp x) :
    Effect s i (skipOnKey wanted k s) := by
  rcases skipOnKey_cases wanted k s with ⟨-, e⟩ | ⟨-, e⟩ <;> rw [e]
  · exact .anomaly _ hi
  · exact .skip _ (.inr (.inr hi))

/-- Every answer of `exec` is one of the effects. -/
theorem exec_effect (h : exec i s = .next t) : Effect s i t := by
  cases i
  case cls => cases h; exact .display _ s.v (.inl rfl)
  case drw x y n =>
    rcases execDrw_cases h with ⟨-, rfl⟩ | ⟨-, -, rfl⟩
    · exact .display _ _ (.inr ⟨x, y, n, rfl⟩)
    · exact .fault _ _ (.inr (.inr (.inl ⟨x, y, n, rfl⟩)))
  case jp => cases h; exact .jump _
  case jpV0 => cases h; exact .jumpV0 _
  case ret =>
    rcases execRet_cases h with ⟨-, rfl⟩ | ⟨-, rfl⟩
    · exact .fault _ _ (.inl rfl)
    · exact .ret
  case call nnn =>
    rcases execCall_cases h with ⟨hsp, rfl⟩ | ⟨-, rfl⟩
    · exact .call nnn hsp
    · exact .fault _ _ (.inr (.inl ⟨nnn, rfl⟩))
  case seImm x kk => cases h; exact .skip _ (.inl ⟨x, kk, .inl rfl⟩)
  case sneImm x kk => cases h; exact .skip _ (.inl ⟨x, kk, .inr rfl⟩)
  case seReg x y => cases h; exact .skip _ (.inr (.inl ⟨x, y, .inl rfl⟩))
  case sneReg x y => cases h; exact .skip _ (.inr (.inl ⟨x, y, .inr rfl⟩))
  case skp x => cases h; exact effect_skipOnKey ⟨x, .inl rfl⟩
  case sknp x => cases h; exact effect_skipOnKey ⟨x, .inr rfl⟩
  case ldI nnn => cases h; exact .index _ (.inl ⟨nnn, rfl⟩)
  case addI x => cases h; exact .index _ (.inr ⟨x, .inl rfl⟩)
  case ldF x => cases h; exact .index _ (.inr ⟨x, .inr rfl⟩)
  case ldB x =>
    rcases execLdB_cases h with ⟨-, rfl⟩ | ⟨-, rfl⟩
    · exact .store _ _ ⟨x, .inl rfl⟩
    · exact .fault _ _ (.inr (.inr (.inr ⟨x, .inl rfl⟩)))
  case storeRegs x =>
    rcases execStoreRegs_cases h with ⟨-, rfl⟩ | ⟨-, rfl⟩
    · exact .store _ _ ⟨x, .inr rfl⟩
    · exact .fault _ _ (.inr (.inr (.inr ⟨x, .inr (.inl rfl)⟩)))
  case loadRegs x =>
    rcases execLoadRegs_cases h with ⟨-, rfl⟩ | ⟨-, rfl⟩
    · rw [foldl_loadReg_frame]; exact .registers _
    · exact .fault _ _ (.inr (.inr (.inr ⟨x, .inr (.inr rfl)⟩)))
  case ldVxK => cases h; exact .keyWait _
  case ldDtVx => cases h; exact .delayTimer _
  case ldStVx => cases h; exact .soundTimer _
  case ldImm | addImm | ldReg | orReg | andReg | xorReg | addReg | subReg | shr | subnReg | shl | rnd |
      ldVxDt =>
    cases h; exact .registers _

/-! ## The writers of each field -/

namespace Effect

theorem mem_writers (e : Effect s i t) : t.mem = s.mem ∨ ∃ x, i = .ldB x ∨ i = .storeRegs x := by
  cases e with
  | store _ _ hi => exact .inr hi
  | _ => exact .inl rfl

theorem i_writers (e : Effect s i t) :
    t.i = s.i ∨ (∃ nnn, i = .ldI nnn) ∨ ∃ x, i = .addI x ∨ i = .ldF x := by
  cases e with
  | index _ hi => exact .inr hi
  | _ => exact .inl rfl

theorem pc_writers (e : Effect s i t) :
    t.pc = s.pc ∨ i = .ret ∨ (∃ nnn, i = .jp nnn ∨ i = .call nnn ∨ i = .jpV0 nnn) ∨
      (∃ x kk, i = .seImm x kk ∨ i = .sneImm x kk) ∨ (∃ x y, i = .seReg x y ∨ i = .sneReg x y) ∨
      ∃ x, i = .skp x ∨ i = .sknp x := by
  cases e with
  | ret => exact .inr (.inl rfl)
  | jump nnn => exact .inr (.inr (.inl ⟨nnn, .inl rfl⟩))
  | call nnn => exact .inr (.inr (.inl ⟨nnn, .inr (.inl rfl)⟩))
  | jumpV0 nnn => exact .inr (.inr (.inl ⟨nnn, .inr (.inr rfl)⟩))
  | skip _ hi => exact .inr (.inr (.inr hi))
  | _ => exact .inl rfl

theorem stack_writers (e : Effect s i t) : t.stack = s.stack ∨ ∃ nnn, i = .call nnn := by
  cases e with
  | call nnn => exact .inr ⟨nnn, rfl⟩
  | _ => exact .inl rfl

theorem sp_writers (e : Effect s i t) : t.sp = s.sp ∨ i = .ret ∨ ∃ nnn, i = .call nnn := by
  cases e with
  | ret => exact .inr (.inl rfl)
  | call nnn => exact .inr (.inr ⟨nnn, rfl⟩)
  | _ => exact .inl rfl

theorem dt_writers (e : Effect s i t) : t.dt = s.dt ∨ ∃ x, i = .ldDtVx x := by
  cases e with
  | delayTimer x => exact .inr ⟨x, rfl⟩
  | _ => exact .inl rfl

theorem st_writers (e : Effect s i t) : t.st = s.st ∨ ∃ x, i = .ldStVx x := by
  cases e with
  | soundTimer x => exact .inr ⟨x, rfl⟩
  | _ => exact .inl rfl

theorem disp_writers (e : Effect s i t) : t.disp = s.disp ∨ i = .cls ∨ ∃ x y n, i = .drw x y n := by
  cases e with
  | display _ _ hi => exact .inr hi
  | _ => exact .inl rfl

theorem execState_writers (e : Effect s i t) :
    t.execState = s.execState ∨ (∃ x, i = .ldVxK x) ∨ t.execState = .halted := by
  cases e with
  | keyWait x => exact .inr (.inl ⟨x, rfl⟩)
  | fault => exact .inr (.inr rfl)
  | _ => exact .inl rfl

theorem fault_writers (e : Effect s i t) :
    t.fault = s.fault ∨ i = .ret ∨ (∃ nnn, i = .call nnn) ∨ (∃ x y n, i = .drw x y n) ∨
      ∃ x, i = .ldB x ∨ i = .storeRegs x ∨ i = .loadRegs x := by
  cases e with
  | fault _ _ hi => exact .inr hi
  | _ => exact .inl rfl

theorem out_writers (e : Effect s i t) :
    t.out = s.out ∨ t.out.frame = s.out.frame ∧ ∃ x, i = .skp x ∨ i = .sknp x := by
  cases e with
  | anomaly _ hi => exact .inr ⟨rfl, hi⟩
  | _ => exact .inl rfl

end Effect

end Sys2Proof.Laws

open Sys2Proof.Laws

/-- Settles O31: each clause is the writers' lemma of its field; the registers' is O30's frame, and the
last six are `exec_keeps`. -/
theorem stateIsWrittenOnlyByItsWriters : Obligations.StateIsWrittenOnlyByItsWriters := by
  unfold Obligations.StateIsWrittenOnlyByItsWriters
  intro i s t h
  have e := exec_effect h
  obtain ⟨hInstr, hTimer, hParams, hSched, hInputs, hTick, -⟩ := exec_keeps h
  refine ⟨?_, e.mem_writers.resolve_left, ?_, e.i_writers.resolve_left, e.pc_writers.resolve_left,
    e.stack_writers.resolve_left, e.sp_writers.resolve_left, e.dt_writers.resolve_left,
    e.st_writers.resolve_left, e.disp_writers.resolve_left, e.execState_writers.resolve_left,
    e.fault_writers.resolve_left, e.out_writers.resolve_left,
    hInstr, hTimer, hParams, hSched, hInputs, hTick⟩
  · rintro ⟨a, hread⟩
    exact e.mem_writers.resolve_left fun hmem => hread (by rw [hmem])
  · exact fun j hne => by_contra fun hj => hne (exec_getV_of_not_writesRegister h hj)
end

section
/-! The invariant of the machine (R107, R112, R117, R626): what each operation over the state does to it,
and that the effects of `exec`, the instruction step and the iteration keep it. -/

namespace Sys2Proof.Laws
open Sys2Proof Sys2Proof.Machine

variable {i : Instr} {s t : State}

/-! ## Operations that write no field of the invariant -/

/-- The invariant speaks of memory, PC, the stack, EXEC and FAULT only. -/
theorem inv_congr (hmem : t.mem = s.mem) (hpc : t.pc = s.pc) (hstack : t.stack = s.stack)
    (hexec : t.execState = s.execState) (hfault : t.fault = s.fault) : t.Inv ↔ s.Inv := by
  constructor <;> rintro ⟨m, p, k, f⟩ <;> exact ⟨hmem ▸ m, hpc ▸ p, hstack ▸ k, hexec ▸ hfault ▸ f⟩

@[simp] theorem inv_withV (v : Vector Byte 16) : State.Inv { s with v := v } ↔ s.Inv :=
  inv_congr rfl rfl rfl rfl rfl
@[simp] theorem inv_withDisp (d : Display) (v : Vector Byte 16) :
    State.Inv { s with disp := d, v := v } ↔ s.Inv := inv_congr rfl rfl rfl rfl rfl
@[simp] theorem inv_setV (x : RegIx) (b : Byte) : (setV s x b).Inv ↔ s.Inv :=
  inv_congr rfl rfl rfl rfl rfl
@[simp] theorem inv_setI (a : Word) : (setI s a).Inv ↔ s.Inv := inv_congr rfl rfl rfl rfl rfl
@[simp] theorem inv_setDt (b : Byte) : (setDt s b).Inv ↔ s.Inv := inv_congr rfl rfl rfl rfl rfl
@[simp] theorem inv_setSt (b : Byte) : (setSt s b).Inv ↔ s.Inv := inv_congr rfl rfl rfl rfl rfl
@[simp] theorem inv_pop : (pop s).Inv ↔ s.Inv := inv_congr rfl rfl rfl rfl rfl
@[simp] theorem inv_raiseAnomaly (a : Anomaly) : (raiseAnomaly a s).Inv ↔ s.Inv :=
  inv_congr rfl rfl rfl rfl rfl
@[simp] theorem inv_clearOutputs : (clearOutputs s).Inv ↔ s.Inv := inv_congr rfl rfl rfl rfl rfl
@[simp] theorem inv_stopScheduler : (stopScheduler s).Inv ↔ s.Inv := inv_congr rfl rfl rfl rfl rfl
@[simp] theorem inv_consumeInput : (consumeInput s).Inv ↔ s.Inv := inv_congr rfl rfl rfl rfl rfl

@[simp] theorem inv_stampInstr (c : ClockInput) : (stampInstr c s).Inv ↔ s.Inv := by
  cases c <;> exact inv_congr rfl rfl rfl rfl rfl

@[simp] theorem inv_stampTimer (c : ClockInput) : (stampTimer c s).Inv ↔ s.Inv := by
  cases c <;> exact inv_congr rfl rfl rfl rfl rfl

@[simp] theorem inv_timerStep : (timerStep s).Inv ↔ s.Inv := by
  by_cases h : s.execState = .halted
  · rw [timerStep_halted h]
  · rw [timerStep_of_not_halted h]; exact inv_congr rfl rfl rfl rfl rfl

@[simp] theorem inv_timerPart (fires : Bool) (c : ClockInput) : (timerPart fires c s).Inv ↔ s.Inv := by
  cases fires <;> simp [timerPart]

/-! ## Operations that write a field of the invariant -/

theorem inv_setPc {a : Word} (h : s.Inv) (ha : a.toNat ≤ 0x10FE) : (setPc s a).Inv :=
  ⟨h.memory, ha, h.stack, h.fault⟩

theorem inv_store {a : Nat} {bs : List Byte} (h : s.Inv) :
    (setMem s (Memory.writeBytes s.mem a bs)).Inv :=
  ⟨wf_writeBytes h.memory, h.pc, h.stack, h.fault⟩

theorem inv_push {a : Word} (h : s.Inv) (ha : a.toNat ≤ 0x1000) (hsp : s.sp.val < 16) :
    (push s a hsp).Inv where
  memory := h.memory
  pc := h.pc
  fault := h.fault
  stack j := by
    simp only [push_stack, Fin.getElem_fin, Vector.getElem_set]
    split_ifs
    · exact ha
    · exact h.stack j

/-- EXEC moves between the two states that are not Halted. -/
theorem inv_setExec {e : ExecState} (h : s.Inv) (hs : s.execState ≠ .halted) (he : e ≠ .halted) :
    (setExec s e).Inv :=
  ⟨h.memory, h.pc, h.stack, iff_of_false he (mt h.fault.2 hs)⟩

/-- A fault sets EXEC and FAULT together (R620). -/
theorem inv_raiseFault {code : FaultCode} {pc : Word} {word : Option Word} {addr : Option Nat}
    (h : s.Inv) : (raiseFault code pc word addr s).Inv :=
  ⟨h.memory, h.pc, h.stack, iff_of_true rfl rfl⟩

theorem inv_resolveWait {r : RegIx} (h : s.Inv) (hs : s.execState ≠ .halted) : (resolveWait r s).Inv := by
  cases hk : (inputNow s).keyPress with
  | none => rwa [resolveWait_none hk]
  | some d =>
    rw [resolveWait_some hk]
    exact inv_setExec ((inv_setV ..).2 h) hs (by decide)

/-! ## Bounds on PC (R107) -/

theorem zextAddr_toNat_lt (nnn : Addr12) : (zextAddr nnn).toNat < 0x1000 := by
  rw [zextAddr, BitVec.toNat_setWidth]; omega

/-- Bnnn reaches at most 0xFFF + 0xFF. -/
theorem offsetTarget_toNat_le (nnn : Addr12) : (offsetTarget s nnn).toNat ≤ 0x10FE := by
  rw [offsetTarget_toNat]; omega

theorem toNat_add_two {a : Word} (h : a.toNat ≤ 0x1000) : (a + 2#16).toNat = a.toNat + 2 := by
  rw [BitVec.toNat_add, BitVec.toNat_ofNat]; omega

theorem topOfStack_toNat_le (h : s.Inv) : (topOfStack s).toNat ≤ 0x1000 :=
  h.stack ⟨s.sp.val - 1, by omega⟩

/-! ## The steps -/

/-- After a fetch, where PC is at most 0x1000, every effect keeps the invariant. The bound is what makes a
pushed return address, and so every stack entry, at most 0x1000, and it leaves room for a skip. -/
theorem Effect.inv (e : Effect s i t) (h : s.Inv) (hrun : s.execState = .running)
    (hpc : s.pc.toNat ≤ 0x1000) : t.Inv := by
  have live : s.execState ≠ .halted := by rw [hrun]; decide
  cases e with
  | registers | index | delayTimer | soundTimer | anomaly | display => simpa using h
  | jump nnn => exact inv_setPc h (by have := zextAddr_toNat_lt nnn; omega)
  | jumpV0 nnn => exact inv_setPc h (offsetTarget_toNat_le nnn)
  | call nnn hsp => exact inv_setPc (inv_push h hpc hsp) (by have := zextAddr_toNat_lt nnn; omega)
  | ret => exact inv_setPc (inv_pop.2 h) (by have := topOfStack_toNat_le h; omega)
  | skip c =>
    have := toNat_add_two hpc
    exact inv_setPc h (by split_ifs <;> omega)
  | store => exact inv_store h
  | keyWait => exact inv_setExec h live (by simp)
  | fault => exact inv_raiseFault h

theorem instrStep_inv (hstep : instrStep s = .next t) (h : s.Inv) : t.Inv := by
  have fetched (hp : s.pc.toNat ≤ 0xFFE) : (advance s).pc.toNat ≤ 0x1000 := by
    rw [advance_pc, toNat_add_two (by omega)]; omega
  have advanced (hp : s.pc.toNat ≤ 0xFFE) : (advance s).Inv :=
    inv_setPc h (by have := fetched hp; simp only [advance_pc] at this; omega)
  rcases instrStep_cases hstep with
    ⟨-, rfl⟩ | ⟨r, hw, rfl⟩ | ⟨-, -, rfl⟩ | ⟨-, hp, e, -, rfl⟩ | ⟨hr, hp, i, -, hexec⟩
  · exact h
  · exact inv_resolveWait h (by rw [hw]; simp)
  · exact inv_raiseFault h
  · exact (inv_raiseAnomaly _).2 (advanced hp)
  · exact (exec_effect hexec).inv (advanced hp) hr (fetched hp)

theorem step_inv (hstep : step s = .next t) (h : s.Inv) : t.Inv := by
  rcases step_cases hstep with ⟨-, rfl⟩ | ⟨-, -, rfl⟩ | ⟨-, -, u, hu, rfl⟩
  · exact h
  · simpa using h
  · rcases hu with ⟨-, w, hw, rfl⟩ | ⟨-, rfl⟩
    · simpa using instrStep_inv hw (inv_clearOutputs.2 h)
    · simpa using h

end Sys2Proof.Laws

/-- Settles O56: an iteration is built from operations that keep the invariant; the instruction step needs
the bound 0x1000 on PC that a fetch leaves behind. -/
theorem everyStepKeepsTheInvariant : Obligations.EveryStepKeepsTheInvariant := by
  unfold Obligations.EveryStepKeepsTheInvariant
  exact fun s t h hstep => Sys2Proof.Laws.step_inv hstep h
end

section
/-! The input ports (R150 to R152): what depends on the script of inputs. An instruction reads KEYDOWN, RAND
or no port. -/

namespace Sys2Proof.Laws
open Sys2Proof Sys2Proof.Machine

variable {i : Instr} {s : State} {ins : List HostInput}

/-- The same machine with another script of inputs. -/
def setInputs (s : State) (ins : List HostInput) : State := { s with inputs := ins }

@[simp] theorem setInputs_execState : (setInputs s ins).execState = s.execState := rfl
@[simp] theorem setInputs_scheduler : (setInputs s ins).scheduler = s.scheduler := rfl

/-! ## The stack instructions, by SP -/

theorem execRet_ok (h : s.sp ≠ 0) : exec .ret s = .next (setPc (pop s) (topOfStack s)) := if_neg h

theorem execRet_fault (h : s.sp = 0) : exec .ret s = .next (instrFault .stackUnderflow .ret none s) :=
  if_pos h

theorem execCall_ok (nnn : Addr12) (h : s.sp.val < 16) :
    exec (.call nnn) s = .next (setPc (push s s.pc h) (zextAddr nnn)) := dif_pos h

theorem execCall_fault (nnn : Addr12) (h : ¬ s.sp.val < 16) :
    exec (.call nnn) s = .next (instrFault .stackOverflow (.call nnn) none s) := dif_neg h

/-! ## The shared operations -/

/-- A checked access reads no port if its effect reads none. -/
theorem withRange_setInputs {k : Nat} {f : State → State}
    (hf : f (setInputs s ins) = setInputs (f s) ins) :
    withRange i k (setInputs s ins) f = mapNext (setInputs · ins) (withRange i k s f) := by
  by_cases hr : k = 0 ∨ s.i.toNat + k ≤ 4096
  · rw [withRange_ok (s := setInputs s ins) hr, withRange_ok hr, hf, mapNext_next]
  · have hk : 0 < k := by omega
    have hover : 4096 < s.i.toNat + k := by omega
    rw [withRange_fault (s := setInputs s ins) hk hover, withRange_fault hk hover]; rfl

theorem foldl_loadReg_setInputs (l : List RegIx) :
    l.foldl loadReg (setInputs s ins) = setInputs (l.foldl loadReg s) ins := by
  induction l generalizing s with
  | nil => rfl
  | cons x l ih => exact ih (s := loadReg s x)

theorem skipOnKey_setInputs {wanted : Bool} {k : Byte}
    (hkeys : (inputNow (setInputs s ins)).keyDown = (inputNow s).keyDown) :
    skipOnKey wanted k (setInputs s ins) = setInputs (skipOnKey wanted k s) ins := by
  unfold skipOnKey keyDown
  rw [hkeys]
  split_ifs <;> rfl

/-! ## The instructions -/

/-- Ex9E and ExA1 read KEYDOWN, Cxkk reads RAND, and no instruction reads anything else of the inputs. -/
theorem exec_setInputs
    (hkeys : (∃ x, i = .skp x ∨ i = .sknp x) →
      (inputNow (setInputs s ins)).keyDown = (inputNow s).keyDown)
    (hrand : (∃ x kk, i = .rnd x kk) → (inputNow (setInputs s ins)).rand = (inputNow s).rand) :
    exec i (setInputs s ins) = mapNext (setInputs · ins) (exec i s) := by
  cases i
  case skp x => exact congrArg Host.Outcome.next (skipOnKey_setInputs (hkeys ⟨x, .inl rfl⟩))
  case sknp x => exact congrArg Host.Outcome.next (skipOnKey_setInputs (hkeys ⟨x, .inr rfl⟩))
  case rnd x kk => simp only [exec, execRnd, randByte, hrand ⟨x, kk, rfl⟩]; rfl
  case drw | ldB | storeRegs => simp only [exec]; apply withRange_setInputs; rfl
  case loadRegs => simp only [exec]; apply withRange_setInputs; exact foldl_loadReg_setInputs _
  case ret =>
    by_cases hsp : s.sp = 0
    · rw [execRet_fault hsp, execRet_fault (s := setInputs s ins) hsp]; rfl
    · rw [execRet_ok hsp, execRet_ok (s := setInputs s ins) hsp]; rfl
  case call nnn =>
    by_cases hsp : s.sp.val < 16
    · rw [execCall_ok nnn hsp, execCall_ok (s := setInputs s ins) nnn hsp]; rfl
    · rw [execCall_fault nnn hsp, execCall_fault (s := setInputs s ins) nnn hsp]; rfl
  -- the other arms answer one record update that does not look at the inputs
  all_goals rfl

end Sys2Proof.Laws

open Sys2Proof.Laws

/-- Settles O51: the ports that `exec_setInputs` must find unchanged are read by the excluded instructions
only. -/
theorem portsAreReadOnlyByTheirInstructions : Obligations.PortsAreReadOnlyByTheirInstructions := by
  unfold Obligations.PortsAreReadOnlyByTheirInstructions
  intro i s ins hskp hsknp hrnd
  refine exec_setInputs (fun ⟨x, hx⟩ => ?_) (fun ⟨x, kk, hx⟩ => absurd hx (hrnd x kk))
  exact hx.elim (absurd · (hskp x)) (absurd · (hsknp x))
end

section
/-! The key press outside a wait (R151): an iteration reads CONTINUE, the clock, KEYDOWN and RAND, and
KEYPRESS in WaitingForKey only. -/

namespace Sys2Proof.Laws
open Sys2Proof Sys2Proof.Machine

variable {s u : State} {ins : List HostInput}

/-! ## The fetch, by PC (R221, R405) -/

theorem fetchExecute_fault (h : 0xFFE < s.pc.toNat) :
    fetchExecute s = .next (raiseFault .fetchRange s.pc none (some s.pc.toNat) s) := if_pos h

theorem fetchExecute_ok (h : ¬ 0xFFE < s.pc.toNat) :
    fetchExecute s = execute (Memory.readWord s.mem s.pc.toNat) (advance s) := if_neg h

/-! ## The parts of an iteration, with another script -/

theorem execute_setInputs {w : Word}
    (hkeys : (inputNow (setInputs s ins)).keyDown = (inputNow s).keyDown)
    (hrand : (inputNow (setInputs s ins)).rand = (inputNow s).rand) :
    execute w (setInputs s ins) = mapNext (setInputs · ins) (execute w s) := by
  cases hd : decodeWord w with
  | ok i => rw [execute_ok hd, execute_ok hd, exec_setInputs (fun _ => hkeys) (fun _ => hrand)]
  | error e => simp only [execute, hd]; rfl

/-- Outside a wait the instruction step reads KEYDOWN and RAND at most. -/
theorem instrStep_setInputs (hwait : ∀ r, s.execState ≠ .waitingForKey r)
    (hkeys : (inputNow (setInputs s ins)).keyDown = (inputNow s).keyDown)
    (hrand : (inputNow (setInputs s ins)).rand = (inputNow s).rand) :
    instrStep (setInputs s ins) = mapNext (setInputs · ins) (instrStep s) := by
  unfold instrStep
  rw [setInputs_execState]
  cases he : s.execState with
  | waitingForKey r => exact absurd he (hwait r)
  | halted => rfl
  | running =>
    show fetchExecute (setInputs s ins) = mapNext (setInputs · ins) (fetchExecute s)
    by_cases hpc : 0xFFE < s.pc.toNat
    · rw [fetchExecute_fault hpc, fetchExecute_fault (s := setInputs s ins) hpc]; rfl
    · rw [fetchExecute_ok hpc, fetchExecute_ok (s := setInputs s ins) hpc]
      exact execute_setInputs (s := advance s) hkeys hrand

theorem fireInstr_setInputs (hclock : (inputNow (setInputs s ins)).clock = (inputNow s).clock) :
    fireInstr (setInputs s ins) = fireInstr s := by
  unfold fireInstr; rw [hclock]; rfl

theorem fireTimer_setInputs (hclock : (inputNow (setInputs s ins)).clock = (inputNow s).clock) :
    fireTimer (setInputs s ins) = fireTimer s := by
  unfold fireTimer; rw [hclock]; rfl

theorem stampInstr_setInputs (c : ClockInput) :
    stampInstr c (setInputs s ins) = setInputs (stampInstr c s) ins := by
  cases c <;> rfl

theorem stampTimer_setInputs (c : ClockInput) :
    stampTimer c (setInputs s ins) = setInputs (stampTimer c s) ins := by
  cases c <;> rfl

theorem timerStep_setInputs : timerStep (setInputs s ins) = setInputs (timerStep s) ins := by
  by_cases h : s.execState = .halted
  · rw [timerStep_halted h, timerStep_halted (s := setInputs s ins) h]
  · rw [timerStep_of_not_halted h, timerStep_of_not_halted (s := setInputs s ins) h]; rfl

theorem timerPart_setInputs (fires : Bool) (c : ClockInput) :
    timerPart fires c (setInputs s ins) = setInputs (timerPart fires c s) ins := by
  cases fires
  · rfl
  · simp only [timerPart, if_true, timerStep_setInputs, stampTimer_setInputs]

/-- The head of the script is gone after an iteration. -/
theorem consumeInput_setInputs (h : ins.tail = s.inputs.tail) :
    consumeInput (setInputs s ins) = consumeInput s := by
  simp only [consumeInput, setInputs, h]

/-! ## What the parts of an iteration leave of the script -/

@[simp] theorem stampInstr_inputs (c : ClockInput) : (stampInstr c s).inputs = s.inputs := by
  cases c <;> rfl

@[simp] theorem stampTimer_inputs (c : ClockInput) : (stampTimer c s).inputs = s.inputs := by
  cases c <;> rfl

@[simp] theorem timerPart_inputs (fires : Bool) (c : ClockInput) :
    (timerPart fires c s).inputs = s.inputs := by
  cases fires
  · rfl
  · simp [timerPart, (timerStep_keeps s).1]

theorem instrPart_inputs (h : instrPart s = .next u) : u.inputs = s.inputs := by
  unfold instrPart at h
  split_ifs at h
  · obtain ⟨w, hw, rfl⟩ := mapNext_eq_next h
    rw [stampInstr_inputs, (instrStep_keeps hw).1, clearOutputs_inputs]
  · cases h; rfl

/-! ## The iteration -/

/-- The first half of an iteration outside a wait, on inputs that differ in the key press only. -/
theorem instrPart_setInputs (hwait : ∀ r, s.execState ≠ .waitingForKey r)
    (hclock : (inputNow (setInputs s ins)).clock = (inputNow s).clock)
    (hkeys : (inputNow (setInputs s ins)).keyDown = (inputNow s).keyDown)
    (hrand : (inputNow (setInputs s ins)).rand = (inputNow s).rand) :
    instrPart (setInputs s ins) = mapNext (setInputs · ins) (instrPart s) := by
  have hstep : instrStep (clearOutputs (setInputs s ins)) =
      mapNext (setInputs · ins) (instrStep (clearOutputs s)) :=
    instrStep_setInputs (s := clearOutputs s) (ins := ins) hwait hkeys hrand
  unfold instrPart
  rw [fireInstr_setInputs hclock, hstep, hclock]
  split_ifs
  · cases instrStep (clearOutputs s) with
    | next w => exact congrArg Host.Outcome.next (stampInstr_setInputs _)
    | fault r => rfl
    | refused r => rfl
  · rfl

/-- An iteration outside a wait is the same on two scripts that differ in the key press of their heads. -/
theorem step_setInputs {press : Option (Fin 16)} (hs : s.scheduler = .iterating)
    (hwait : ∀ r, s.execState ≠ .waitingForKey r) (htail : ins.tail = s.inputs.tail)
    (hnow : inputNow (setInputs s ins) = { inputNow s with keyPress := press }) :
    step (setInputs s ins) = step s := by
  have hclock : (inputNow (setInputs s ins)).clock = (inputNow s).clock := by rw [hnow]
  have hinstr : instrPart (setInputs s ins) = mapNext (setInputs · ins) (instrPart s) :=
    instrPart_setInputs hwait hclock (by rw [hnow]) (by rw [hnow])
  simp only [step, iteration, setInputs_scheduler, hs, hinstr, fireTimer_setInputs hclock, hnow]
  split_ifs
  · cases hu : instrPart s with
    | next u =>
      have hrest : ins.tail = (timerPart (fireTimer s) (inputNow s).clock u).inputs.tail := by
        rw [timerPart_inputs, instrPart_inputs hu, htail]
      simp only [mapNext_next, timerPart_setInputs, consumeInput_setInputs hrest]
    | fault r => rfl
    | refused r => rfl
  · exact congrArg Host.Outcome.next
      (consumeInput_setInputs (s := stopScheduler (clearOutputs s)) (ins := ins) htail)

end Sys2Proof.Laws

/-- Settles O50: outside a wait no part of the iteration reads the key press, and the iteration's end drops
the input that carries it. -/
theorem keyPressIsIgnoredUnlessWaiting : Obligations.KeyPressIsIgnoredUnlessWaiting := by
  unfold Obligations.KeyPressIsIgnoredUnlessWaiting
  intro s h rest press hs hin hwait
  have htail : rest = s.inputs.tail := by rw [hin]; rfl
  have hnow : Sys2Proof.Machine.inputNow s = h := by rw [Sys2Proof.Machine.inputNow, hin]
  exact Sys2Proof.Laws.step_setInputs (press := press) hs hwait htail (by rw [hnow]; rfl)
end

section
/-! The fetch of stored bytes (R242, R711): the bytes that memory holds after Fx55 and Fx33, and the instruction
step that fetches from a given address. -/

namespace Sys2Proof.Laws
open Sys2Proof Sys2Proof.Machine Sys2Proof.Claims

variable {s : State} {x : RegIx} {a c : Nat}

/-- Memory after Fx55 (R474). -/
theorem read_store_regsUpTo (hwf : Memory.wf s.mem) (hx : s.i.toNat + x.val < 4096) :
    Memory.read (Memory.writeBytes s.mem s.i.toNat (regsUpTo s x)) c = byteAfterStore s x c := by
  rw [read_writeBytes hwf (by rw [length_regsUpTo]; exact hx), length_regsUpTo, byteAfterStore]
  by_cases hc : s.i.toNat ≤ c ∧ c ≤ s.i.toNat + x.val
  · have hj : (Fin.ofNat 16 (c - s.i.toNat)).val = c - s.i.toNat := by
      rw [Fin.val_ofNat]; omega
    have hjx : Fin.ofNat 16 (c - s.i.toNat) ≤ x := by rw [Fin.le_def, hj]; omega
    rw [if_pos (by omega), if_pos hc, ← regsUpTo_getD hjx, hj]
  · rw [if_neg (by omega), if_neg hc]

/-- The digits of Fx33 as the numbers they stand for (R473). -/
theorem bcdDigits_eq_ofNat (b : Byte) :
    bcdDigits b = [BitVec.ofNat 8 (b.toNat / 100), BitVec.ofNat 8 (b.toNat / 10 % 10),
      BitVec.ofNat 8 (b.toNat % 10)] := by
  simp only [bcdDigits, List.cons.injEq, and_true]
  refine ⟨?_, ?_, ?_⟩ <;>
    exact BitVec.eq_of_toNat_eq (by
      simp only [BitVec.toNat_udiv, BitVec.toNat_umod, BitVec.toNat_ofNat, Nat.reducePow, Nat.reduceMod]
      omega)

/-- Memory after Fx33 (R473). -/
theorem read_store_bcdDigits (hwf : Memory.wf s.mem) (hi : s.i.toNat + 2 < 4096) :
    Memory.read (Memory.writeBytes s.mem s.i.toNat (bcdDigits (getV s x))) c = byteAfterBcd s x c := by
  rw [read_writeBytes hwf (by rw [length_bcdDigits]; exact hi), length_bcdDigits, bcdDigits_eq_ofNat,
    byteAfterBcd]
  by_cases hc : s.i.toNat ≤ c ∧ c < s.i.toNat + 3
  · obtain rfl | rfl | rfl : c = s.i.toNat ∨ c = s.i.toNat + 1 ∨ c = s.i.toNat + 2 := by omega
    all_goals simp
  · rw [if_neg hc, if_neg (by omega), if_neg (by omega), if_neg (by omega)]

/-- A running machine with PC at `a` executes the word at `a`, PC advanced (R405). -/
theorem instrStep_setPc (hrun : s.execState = .running) (ha : a ≤ 0xFFE) :
    instrStep (setPc s (BitVec.ofNat 16 a)) =
      execute (Memory.readWord s.mem a) (setPc s (BitVec.ofNat 16 (a + 2))) := by
  have hpc : (setPc s (BitVec.ofNat 16 a)).pc.toNat = a := by
    rw [setPc_pc, BitVec.toNat_ofNat]; omega
  have hadv : advance (setPc s (BitVec.ofNat 16 a)) = setPc s (BitVec.ofNat 16 (a + 2)) := by
    rw [BitVec.ofNat_add]; rfl
  have hfetch : instrStep (setPc s (BitVec.ofNat 16 a)) = fetchExecute (setPc s (BitVec.ofNat 16 a)) := by
    unfold instrStep; rw [setPc_execState, hrun]
  rw [hfetch, fetchExecute_ok (by omega), hpc, hadv, setPc_mem]

/-- The instruction step on a memory whose bytes are known. -/
theorem instrStep_setMem_setPc {m : Memory} {byte : Nat → Byte} (hrun : s.execState = .running)
    (ha : a ≤ 0xFFE) (hm : ∀ c, Memory.read m c = byte c) :
    instrStep (setPc (setMem s m) (BitVec.ofNat 16 a)) =
      execute (byte a ++ byte (a + 1)) (setPc (setMem s m) (BitVec.ofNat 16 (a + 2))) := by
  rw [instrStep_setPc (s := setMem s m) hrun ha, setMem_mem, Memory.readWord, hm, hm, wordOfBytes]

end Sys2Proof.Laws

open Sys2Proof.Laws

/-- Settles O37: a fetch reads the memory that the store answers, byte by byte. -/
theorem storedBytesAreFetchedAtOnce : Obligations.StoredBytesAreFetchedAtOnce := by
  unfold Obligations.StoredBytesAreFetchedAtOnce
  intro s t x a hwf hrun ha
  constructor
  · intro hx h
    rw [execStoreRegs_ok x hx] at h
    cases h
    exact instrStep_setMem_setPc hrun ha fun _ => read_store_regsUpTo hwf hx
  · intro hi h
    rw [execLdB_ok x hi] at h
    cases h
    exact instrStep_setMem_setPc hrun ha fun _ => read_store_bcdDigits hwf hi
end

section
/-! The decoder against the opcode table and the encoder (R300, R301, R310, R320): what a word of a row
decodes to, and that encoding a decoded word gives the word back. -/

namespace Sys2Proof.Laws
open Sys2Proof Sys2Proof.Claims

variable {w v : Word} {i : Instr}

/-! ## A word of a row decodes to the row's instruction -/

/-- The instruction of `i`'s row with the fields of the word `w` as its operands (R301). -/
def withFieldsOf (w : Word) : Instr → Instr
  | .cls => .cls
  | .ret => .ret
  | .jp _ => .jp (fieldNNN w)
  | .call _ => .call (fieldNNN w)
  | .seImm _ _ => .seImm (fieldX w) (fieldKK w)
  | .sneImm _ _ => .sneImm (fieldX w) (fieldKK w)
  | .seReg _ _ => .seReg (fieldX w) (fieldY w)
  | .ldImm _ _ => .ldImm (fieldX w) (fieldKK w)
  | .addImm _ _ => .addImm (fieldX w) (fieldKK w)
  | .ldReg _ _ => .ldReg (fieldX w) (fieldY w)
  | .orReg _ _ => .orReg (fieldX w) (fieldY w)
  | .andReg _ _ => .andReg (fieldX w) (fieldY w)
  | .xorReg _ _ => .xorReg (fieldX w) (fieldY w)
  | .addReg _ _ => .addReg (fieldX w) (fieldY w)
  | .subReg _ _ => .subReg (fieldX w) (fieldY w)
  | .shr _ _ => .shr (fieldX w) (fieldY w)
  | .subnReg _ _ => .subnReg (fieldX w) (fieldY w)
  | .shl _ _ => .shl (fieldX w) (fieldY w)
  | .sneReg _ _ => .sneReg (fieldX w) (fieldY w)
  | .ldI _ => .ldI (fieldNNN w)
  | .jpV0 _ => .jpV0 (fieldNNN w)
  | .rnd _ _ => .rnd (fieldX w) (fieldKK w)
  | .drw _ _ _ => .drw (fieldX w) (fieldY w) (fieldN w)
  | .skp _ => .skp (fieldX w)
  | .sknp _ => .sknp (fieldX w)
  | .ldVxDt _ => .ldVxDt (fieldX w)
  | .ldVxK _ => .ldVxK (fieldX w)
  | .ldDtVx _ => .ldDtVx (fieldX w)
  | .ldStVx _ => .ldStVx (fieldX w)
  | .addI _ => .addI (fieldX w)
  | .ldF _ => .ldF (fieldX w)
  | .ldB _ => .ldB (fieldX w)
  | .storeRegs _ => .storeRegs (fieldX w)
  | .loadRegs _ => .loadRegs (fieldX w)

/-- Words that agree under a row's mask agree in the fields that the mask keeps. -/
theorem nib0_eq_of_and_F000 (h : w &&& 0xF000#16 = v &&& 0xF000#16) : nib0 w = nib0 v :=
  (nib0_of_and_F000 h).trans (nib0_of_and_F000 rfl).symm
theorem nibs_eq_of_and_F00F (h : w &&& 0xF00F#16 = v &&& 0xF00F#16) : nib0 w = nib0 v ∧ nib3 w = nib3 v := by
  obtain ⟨w0, w3⟩ := nibs_of_and_F00F h
  obtain ⟨v0, v3⟩ := nibs_of_and_F00F (w := v) rfl
  exact ⟨w0.trans v0.symm, w3.trans v3.symm⟩
theorem nib0_kk_eq_of_and_F0FF (h : w &&& 0xF0FF#16 = v &&& 0xF0FF#16) :
    nib0 w = nib0 v ∧ fieldKK w = fieldKK v := by
  obtain ⟨w0, wkk⟩ := nib0_kk_of_and_F0FF h
  obtain ⟨v0, vkk⟩ := nib0_kk_of_and_F0FF (w := v) rfl
  exact ⟨w0.trans v0.symm, wkk.trans vkk.symm⟩

/-- Every row decodes to its instruction, the operands read from the word (R301, R311): a word of the row
has the fixed fields of any encoding in that row. -/
theorem rowDecodes (i : Instr) :
    RowDecodes (opcodeRow i).mask (opcodeRow i).pattern (withFieldsOf · i) := by
  intro w h
  have agree : w &&& (opcodeRow i).mask = encode i &&& (opcodeRow i).mask := h.trans (encodesItsRow i).1.symm
  cases i
  case cls | ret =>
    obtain rfl : w = _ := BitVec.and_allOnes.symm.trans h
    decide
  case jp | call | seImm | sneImm | ldImm | addImm | ldI | jpV0 | rnd | drw =>
    have n0 := nib0_eq_of_and_F000 agree
    simp [decodeWord, withFieldsOf, encode, n0]
  case seReg | sneReg =>
    obtain ⟨n0, n3⟩ := nibs_eq_of_and_F00F agree
    simp [decodeWord, withFieldsOf, encode, n0, n3]
  case ldReg | orReg | andReg | xorReg | addReg | subReg | shr | subnReg | shl =>
    obtain ⟨n0, n3⟩ := nibs_eq_of_and_F00F agree
    simp [decodeWord, decodeAlu, withFieldsOf, encode, n0, n3]
  case skp | sknp =>
    obtain ⟨n0, kk⟩ := nib0_kk_eq_of_and_F0FF agree
    simp [decodeWord, withFieldsOf, encode, n0, kk]
  case ldVxDt | ldVxK | ldDtVx | ldStVx | addI | ldF | ldB | storeRegs | loadRegs =>
    obtain ⟨n0, kk⟩ := nib0_kk_eq_of_and_F0FF agree
    simp [decodeWord, decodeMisc, withFieldsOf, encode, n0, kk]

/-- The fields of an instruction's own word are its operands (R301, R312). -/
theorem withFieldsOf_encode (i : Instr) : withFieldsOf (encode i) i = i := by
  cases i <;> simp [withFieldsOf, encode]

/-- Decoding inverts encoding. -/
@[simp] theorem decodeWord_encode (i : Instr) : decodeWord (encode i) = .ok i :=
  calc decodeWord (encode i)
    _ = .ok (withFieldsOf (encode i) i) := rowDecodes i _ (encodesItsRow i).1
    _ = .ok i := by rw [withFieldsOf_encode]

/-! ## Encoding a decoded word -/

theorem encNNN_of_nib0 {c : Nibble} (h : nib0 w = c) : encNNN c (fieldNNN w) = w := by
  rw [← h, encNNN_fields]
theorem encXKK_of_nib0 {c : Nibble} (h : nib0 w = c) : encXKK c (fieldX w) (fieldKK w) = w := by
  rw [← h, encXKK_fields]
theorem encXKK_of_nib0_kk {c : Nibble} {k : Byte} (h : nib0 w = c) (hk : fieldKK w = k) :
    encXKK c (fieldX w) k = w := by
  rw [← hk, encXKK_of_nib0 h]
theorem encXYN_of_nibs {c d : Nibble} (h : nib0 w = c) (hd : nib3 w = d) :
    encXYN c (fieldX w) (fieldY w) d = w := by
  rw [← h, ← hd, encXYN_fields]

/-- Class 8: the word is the encoding of its x, y and n3. -/
theorem encode_of_decodeAlu (h0 : nib0 w = 0x8#4) (h : decodeAlu w = .ok i) : encode i = w := by
  unfold decodeAlu at h
  split at h <;> cases h
  all_goals exact encXYN_of_nibs h0 ‹_›

/-- Class F: the word is the encoding of its x and kk. -/
theorem encode_of_decodeMisc (h0 : nib0 w = 0xF#4) (h : decodeMisc w = .ok i) : encode i = w := by
  unfold decodeMisc at h
  split at h <;> cases h
  all_goals exact encXKK_of_nib0_kk h0 ‹_›

/-- Encoding inverts decoding: the decoder drops no bit of the word (R301, R310). -/
theorem encode_of_decodeWord (h : decodeWord w = .ok i) : encode i = w := by
  unfold decodeWord at h
  split at h -- `h_1` to `h_15` are the classes by n0, `h_16` is class 0
  case h_8 h0 => exact encode_of_decodeAlu h0 h
  case h_15 h0 => exact encode_of_decodeMisc h0 h
  case h_1 | h_2 | h_10 | h_11 => cases h; exact encNNN_of_nib0 ‹_›
  case h_3 | h_4 | h_6 | h_7 | h_12 => cases h; exact encXKK_of_nib0 ‹_›
  case h_13 h0 => cases h; exact encXYN_of_nibs h0 rfl
  case h_5 | h_9 =>
    split_ifs at h with h3
    cases h; exact encXYN_of_nibs ‹_› h3
  case h_14 h0 =>
    split_ifs at h with hk hk
    all_goals cases h; exact encXKK_of_nib0_kk h0 hk
  case h_16 =>
    have h0 : nib0 w = 0x0#4 := by apply nib0_eq_zero <;> assumption
    split_ifs at h with hn hn
    all_goals
      cases h
      rw [← encNNN_of_nib0 h0, hn]
      decide

/-! ## The table of the rows -/

/-- The pattern of each row decodes to an instruction of that row. -/
theorem decodeWord_pattern :
    ∀ r ∈ opcodeRows, (decodeWord r.pattern).toOption.map opcodeRow = some r := by
  decide

/-- Every row of the table is the row of an instruction. -/
theorem exists_opcodeRow_eq {r : OpcodeRow} (h : r ∈ opcodeRows) : ∃ i, opcodeRow i = r := by
  obtain ⟨i, -, hi⟩ := Option.map_eq_some_iff.1 (decodeWord_pattern r h)
  exact ⟨i, hi⟩

/-- Two rows whose fixed bits agree where both fix them are the same row. -/
theorem opcodeRows_compatible :
    ∀ r ∈ opcodeRows, ∀ q ∈ opcodeRows, r.pattern &&& q.mask = q.pattern &&& r.mask → r = q := by
  decide

/-- A decoded instruction's row is one of the table, and it matches the word. -/
theorem opcodeRow_of_decodeWord (h : decodeWord w = .ok i) :
    opcodeRow i ∈ opcodeRows ∧ (opcodeRow i).matches w = true := by
  obtain ⟨fixedBits, listed⟩ := encodesItsRow i
  rw [encode_of_decodeWord h] at fixedBits
  exact ⟨listed, beq_iff_eq.2 fixedBits⟩

/-- A word that matches a row of the table decodes. -/
theorem decodeWord_of_matches {r : OpcodeRow} (hr : r ∈ opcodeRows) (h : r.matches w = true) :
    ∃ i, decodeWord w = .ok i := by
  obtain ⟨i, rfl⟩ := exists_opcodeRow_eq hr
  exact ⟨_, rowDecodes i w (beq_iff_eq.1 h)⟩

/-- R320: the decoder refuses exactly the words of no row. -/
theorem decodeWord_unrecognized_iff :
    decodeWord w = .error (.unrecognized w) ↔ ∀ r ∈ opcodeRows, r.matches w = false := by
  constructor
  · intro h r hr
    by_contra hm
    obtain ⟨i, hi⟩ := decodeWord_of_matches hr (Bool.eq_true_of_not_eq_false hm)
    rw [h] at hi
    cases hi
  · intro h
    rcases decodeWord_total w with ⟨i, hi⟩ | herr
    · obtain ⟨hr, hm⟩ := opcodeRow_of_decodeWord hi
      rw [h _ hr] at hm
      cases hm
    · exact herr

/-! ## Byte strings (R300) -/

/-- The decoder takes exactly the first two bytes of a byte string. -/
theorem decodeBytes_cons_cons {hi lo : Byte} {rest more : List Byte} :
    decodeBytes (hi :: lo :: rest) = .ok (i, more) ↔
      decodeWord (wordOfBytes hi lo) = .ok i ∧ more = rest := by
  simp only [decodeBytes]
  cases decodeWord (wordOfBytes hi lo) <;> simp [eq_comm]

theorem wordOfBytes_toNat (hi lo : Byte) : (wordOfBytes hi lo).toNat = hi.toNat * 256 + lo.toNat := by
  have hlo : lo.toNat < 2 ^ 8 := lo.isLt
  rw [wordOfBytes, BitVec.toNat_append, ← Nat.shiftLeft_add_eq_or_of_lt hlo, Nat.shiftLeft_eq]

end Sys2Proof.Laws

open Sys2Proof Sys2Proof.Laws

/-- Settles O1: the encoding of an instruction lies in its row, so it decodes to the row's instruction, whose
operands are the fields of the encoding. -/
theorem decodeOfEncodeIsTheInstruction : Obligations.DecodeOfEncodeIsTheInstruction := by
  unfold Obligations.DecodeOfEncodeIsTheInstruction
  exact decodeWord_encode

/-- Settles O2, by the classes of the decoder: each operand is a field of the word, and n0, with n3 or kk
where the class reads them, is fixed by the arm. -/
theorem encodeOfDecodedWordIsTheWord : Obligations.EncodeOfDecodedWordIsTheWord := by
  unfold Obligations.EncodeOfDecodedWordIsTheWord
  exact fun _ _ => encode_of_decodeWord

/-- Settles O3: under both masks, a word of two rows is the pattern of each, so the patterns agree there. -/
theorem opcodeRowsDoNotOverlap : Obligations.OpcodeRowsDoNotOverlap := by
  unfold Obligations.OpcodeRowsDoNotOverlap
  intro w r hr q hq hrw hqw
  refine opcodeRows_compatible r hr q hq ?_
  calc r.pattern &&& q.mask
    _ = (w &&& r.mask) &&& q.mask := by rw [beq_iff_eq.1 hrw]
    _ = (w &&& q.mask) &&& r.mask := by ac_rfl
    _ = q.pattern &&& r.mask := by rw [beq_iff_eq.1 hqw]

/-- Settles O4: the row of a decoded word is the row of its encoding, and a word of a row decodes. -/
theorem decoderSelectsTheMatchingRow : Obligations.DecoderSelectsTheMatchingRow := by
  unfold Obligations.DecoderSelectsTheMatchingRow
  exact ⟨fun _ _ => opcodeRow_of_decodeWord, fun _ => decodeWord_unrecognized_iff⟩

/-- Settles O5: decoding and encoding are inverse, and the word of the first two bytes is decoded. -/
theorem instructionIsTwoBytesHighByteFirst : Obligations.InstructionIsTwoBytesHighByteFirst := by
  unfold Obligations.InstructionIsTwoBytesHighByteFirst
  constructor
  · intro i rest
    refine decodeBytes_cons_cons.2 ⟨?_, rfl⟩
    exact (congrArg decodeWord (wordOfBytes_bytes (encode i))).trans (decodeWord_encode i)
  · intro hi lo rest i more h
    obtain ⟨hdec, hmore⟩ := decodeBytes_cons_cons.1 h
    exact ⟨hmore, by rw [encode_of_decodeWord hdec, wordOfBytes_toNat]⟩

/-- Settles O6: eleven closed words. -/
theorem sampleWordsDecodeAsTheTableSays : Obligations.SampleWordsDecodeAsTheTableSays := by
  unfold Obligations.SampleWordsDecodeAsTheTableSays
  decide
end

section
/-! The execution cycle (R400 to R409): every instruction and every step answers a state, an iteration by its
inputs, the stopped scheduler and Halted, and what a fault or an anomaly writes. -/

namespace Sys2Proof.Laws
open Sys2Proof Sys2Proof.Machine Sys2Proof.Claims

variable {i : Instr} {s t u : State}

/-! ## Every operation answers a next state -/

theorem withRange_next (i : Instr) (k : Nat) (s : State) (f : State → State) :
    ∃ t, withRange i k s f = .next t := by
  by_cases hr : k = 0 ∨ s.i.toNat + k ≤ 4096
  · exact ⟨_, withRange_ok hr⟩
  · exact ⟨_, withRange_fault (by omega) (by omega)⟩

theorem exec_next (i : Instr) (s : State) : ∃ t, exec i s = .next t := by
  cases i
  case drw | ldB | storeRegs | loadRegs =>
    simp only [exec, execDrw, execLdB, execStoreRegs, execLoadRegs]; exact withRange_next ..
  case ret =>
    by_cases hsp : s.sp = 0
    · exact ⟨_, execRet_fault hsp⟩
    · exact ⟨_, execRet_ok hsp⟩
  case call nnn =>
    by_cases hsp : s.sp.val < 16
    · exact ⟨_, execCall_ok nnn hsp⟩
    · exact ⟨_, execCall_fault nnn hsp⟩
  -- the other arms answer one record update
  all_goals exact ⟨_, rfl⟩

theorem execute_next (w : Word) (s : State) : ∃ t, execute w s = .next t := by
  cases hd : decodeWord w with
  | ok i => rw [execute_ok hd]; exact exec_next i s
  | error e => simp only [execute, hd]; exact ⟨_, rfl⟩

/-! ## The instruction step, by EXEC (R404) -/

theorem instrStep_running (h : s.execState = .running) : instrStep s = fetchExecute s := by
  unfold instrStep; rw [h]

theorem instrStep_waiting {r : RegIx} (h : s.execState = .waitingForKey r) :
    instrStep s = .next (resolveWait r s) := by
  unfold instrStep; rw [h]

theorem instrStep_halted (h : s.execState = .halted) : instrStep s = .next s := by
  unfold instrStep; rw [h]

theorem instrStep_next (s : State) : ∃ t, instrStep s = .next t := by
  cases h : s.execState with
  | waitingForKey r => exact ⟨_, instrStep_waiting h⟩
  | halted => exact ⟨_, instrStep_halted h⟩
  | running =>
    rw [instrStep_running h]
    by_cases hpc : 0xFFE < s.pc.toNat
    · exact ⟨_, fetchExecute_fault hpc⟩
    · rw [fetchExecute_ok hpc]; exact execute_next ..

/-! ## The first half of an iteration (R401, R402) -/

theorem instrPart_fires (h : fireInstr s = true) :
    instrPart s = mapNext (stampInstr (inputNow s).clock) (instrStep (clearOutputs s)) := if_pos h

theorem instrPart_idle (h : fireInstr s = false) : instrPart s = .next (clearOutputs s) :=
  if_neg (Bool.eq_false_iff.1 h)

/-- The answer of a first half that fires is that of its instruction step, stamped. -/
theorem instrStep_of_instrPart (h : fireInstr s = true) (hu : instrPart s = .next u) :
    ∃ w, instrStep (clearOutputs s) = .next w ∧ u = stampInstr (inputNow s).clock w :=
  mapNext_eq_next (instrPart_fires h ▸ hu)

theorem instrPart_next (s : State) : ∃ u, instrPart s = .next u := by
  cases h : fireInstr s with
  | false => exact ⟨_, instrPart_idle h⟩
  | true =>
    obtain ⟨w, hw⟩ := instrStep_next (clearOutputs s)
    exact ⟨_, by rw [instrPart_fires h, hw, mapNext_next]⟩

@[simp] theorem stampInstr_tick (c : ClockInput) : (stampInstr c s).tick = s.tick := by
  cases c <;> rfl

@[simp] theorem stampTimer_tick (c : ClockInput) : (stampTimer c s).tick = s.tick := by
  cases c <;> rfl

@[simp] theorem timerPart_tick (fires : Bool) (c : ClockInput) : (timerPart fires c s).tick = s.tick := by
  cases fires
  · rfl
  · simp [timerPart, (timerStep_keeps s).2.1]

theorem instrPart_tick (hu : instrPart s = .next u) : u.tick = s.tick := by
  cases h : fireInstr s with
  | false => rw [instrPart_idle h] at hu; cases hu; rfl
  | true =>
    obtain ⟨w, hw, rfl⟩ := instrStep_of_instrPart h hu
    obtain ⟨-, htick, -⟩ := instrStep_keeps hw
    rw [stampInstr_tick, htick, clearOutputs_tick]

/-! ## The iteration -/

theorem step_stopped (h : s.scheduler = .stopped) : step s = .next s := by
  simp only [step, iteration, h]

/-- The pass that finds CONTINUE false (R400). -/
theorem step_stops (hs : s.scheduler = .iterating) (hc : (inputNow s).cont = false) :
    step s = .next (consumeInput (stopScheduler (clearOutputs s))) := by
  simp [step, iteration, hs, hc]

theorem step_next (s : State) : ∃ t, step s = .next t := by
  cases hs : s.scheduler with
  | stopped => exact ⟨_, step_stopped hs⟩
  | iterating =>
    cases hc : (inputNow s).cont with
    | false => exact ⟨_, step_stops hs hc⟩
    | true =>
      obtain ⟨u, hu⟩ := instrPart_next s
      exact ⟨_, step_iterates hs hc hu⟩

theorem inputNow_of_iterates {h : HostInput} {rest : List HostInput} (hit : Iterates s h rest) :
    inputNow s = h := by
  obtain ⟨-, hin, -⟩ := hit
  rw [inputNow, hin]

/-- An iteration on a listed input: its two halves, and the input used up (R401, R402). -/
theorem step_of_iterates {h : HostInput} {rest : List HostInput} (hit : Iterates s h rest)
    (hu : instrPart s = .next u) :
    step s = .next { timerPart (fireTimer s) h.clock u with inputs := rest, tick := s.tick + 1 } := by
  have hnow := inputNow_of_iterates hit
  obtain ⟨hs, hin, hc⟩ := hit
  rw [step_iterates hs (by rw [hnow, hc]) hu, hnow]
  simp only [consumeInput, timerPart_inputs, timerPart_tick, instrPart_inputs hu, instrPart_tick hu, hin,
    List.tail_cons]

/-! ## When the cadences fire -/

/-- R401: the natural subtraction exceeds the period exactly when the exact difference does. -/
theorem fireInstr_now {now : Nat} (h : (inputNow s).clock = .now now) :
    fireInstr s = decide ((s.params.instrPeriod : Int) < (now : Int) - s.tInstr) := by
  unfold fireInstr
  rw [h]
  exact decide_eq_decide.2 (by omega)

theorem fireTimer_now {now : Nat} (h : (inputNow s).clock = .now now) :
    fireTimer s = decide ((50000 : Int) < (now : Int) - s.tTimer) := by
  unfold fireTimer
  rw [h]
  exact decide_eq_decide.2 (by rw [Config.timerPeriod]; omega)

theorem fireInstr_fire {fi ft : Bool} (h : (inputNow s).clock = .fire fi ft) : fireInstr s = fi := by
  unfold fireInstr; rw [h]

theorem fireTimer_fire {fi ft : Bool} (h : (inputNow s).clock = .fire fi ft) : fireTimer s = ft := by
  unfold fireTimer; rw [h]

/-! ## Runs -/

/-- What every step from a state of `P` keeps holds after any number of steps. -/
theorem run_induction {P : State → Prop} (hP : ∀ s t, P s → step s = .next t → P t) (k : Nat) (hs : P s) :
    ∃ t, Sys2Proof.core.run k s = .next t ∧ P t := by
  induction k generalizing s with
  | zero => exact ⟨s, rfl, hs⟩
  | succ k ih =>
    obtain ⟨u, hu⟩ := step_next s
    rw [run_succ k hu]
    exact ih (hP s u hs hu)

theorem run_stopped (h : s.scheduler = .stopped) (k : Nat) : Sys2Proof.core.run k s = .next s := by
  obtain ⟨t, ht, rfl⟩ := run_induction (P := (· = s))
    (fun u t hu hstep => by subst hu; rw [step_stopped h] at hstep; cases hstep; rfl) k rfl
  exact ht

/-! ## Halted (R407) -/

/-- `t` is Halted, and its snapshot, memory and display are those of `s`. -/
def HaltedAs (s t : State) : Prop :=
  snapshot t = snapshot s ∧ t.mem = s.mem ∧ t.disp = s.disp ∧ t.execState = .halted

@[simp] theorem haltedAs_clearOutputs : HaltedAs s (clearOutputs t) ↔ HaltedAs s t := Iff.rfl
@[simp] theorem haltedAs_stopScheduler : HaltedAs s (stopScheduler t) ↔ HaltedAs s t := Iff.rfl
@[simp] theorem haltedAs_consumeInput : HaltedAs s (consumeInput t) ↔ HaltedAs s t := Iff.rfl

@[simp] theorem haltedAs_stampInstr (c : ClockInput) : HaltedAs s (stampInstr c t) ↔ HaltedAs s t := by
  cases c <;> rfl

@[simp] theorem haltedAs_stampTimer (c : ClockInput) : HaltedAs s (stampTimer c t) ↔ HaltedAs s t := by
  cases c <;> rfl

theorem HaltedAs.halted (h : HaltedAs s t) : t.execState = .halted := by
  obtain ⟨-, -, -, hexec⟩ := h
  exact hexec

theorem HaltedAs.timerPart (fires : Bool) (c : ClockInput) (h : HaltedAs s t) :
    HaltedAs s (timerPart fires c t) := by
  cases fires
  · exact h
  · simpa [Machine.timerPart, timerStep_halted h.halted] using h

theorem HaltedAs.step (h : HaltedAs s t) (hstep : step t = .next u) : HaltedAs s u := by
  have halted : (clearOutputs t).execState = .halted := h.halted
  rcases step_cases hstep with ⟨-, rfl⟩ | ⟨-, -, rfl⟩ | ⟨-, -, v, hv, rfl⟩
  · exact h
  · simpa using h
  · refine haltedAs_consumeInput.2 (HaltedAs.timerPart _ _ ?_)
    rcases hv with ⟨-, w, hw, rfl⟩ | ⟨-, rfl⟩
    · rw [instrStep_halted halted] at hw
      cases hw
      simpa using h
    · simpa using h

/-! ## What faults and anomalies write (R409, R610, R620) -/

namespace Effect

/-- An effect is a fault, or it changes neither FAULT nor enters Halted. -/
theorem faulted_or_not (e : Effect s i t) :
    (∃ code addr, t = faulted code (encode i) addr s) ∨
      t.fault = s.fault ∧ (t.execState = .halted → s.execState = .halted) := by
  cases e with
  | fault code addr => exact .inl ⟨code, addr, rfl⟩
  | keyWait => exact .inr ⟨rfl, fun h => by cases h⟩
  | _ => exact .inr ⟨rfl, id⟩

theorem out_or_anomaly (e : Effect s i t) :
    t.out = s.out ∨ ∃ a, t = { s with out := { s.out with anomaly := some a } } := by
  cases e with
  | anomaly a => exact .inr ⟨a, rfl⟩
  | _ => exact .inl rfl

end Effect

/-! ## The word at PC (R220) -/

theorem readWord_eq_ofNat (m : Memory) (a : Nat) :
    Memory.readWord m a =
      BitVec.ofNat 16 ((Memory.read m a).toNat * 256 + (Memory.read m (a + 1)).toNat) := by
  rw [Memory.readWord, ← wordOfBytes_toNat, BitVec.ofNat_toNat, BitVec.setWidth_eq]

theorem advance_eq_ofNat (s : State) : advance s = { s with pc := BitVec.ofNat 16 (s.pc.toNat + 2) } := by
  rw [BitVec.ofNat_add, BitVec.ofNat_toNat, BitVec.setWidth_eq]; rfl

end Sys2Proof.Laws

open Sys2Proof.Machine Sys2Proof.Laws

/-- Settles O8, by the instructions: the two stack instructions by SP, the four accesses through I by their
range. -/
theorem everyInstructionAnswersANextState : Obligations.EveryInstructionAnswersANextState := by
  unfold Obligations.EveryInstructionAnswersANextState
  exact exec_next

/-- Settles O9, by the scheduler's state and CONTINUE. -/
theorem everyStepAnswersANextState : Obligations.EveryStepAnswersANextState := by
  unfold Obligations.EveryStepAnswersANextState
  exact step_next

/-- Settles O12: the halves of the iteration, each by whether the clock has passed its period. -/
theorem iterationFollowsTheHostClock : Obligations.IterationFollowsTheHostClock := by
  unfold Obligations.IterationFollowsTheHostClock
  intro s h rest now hit hclock
  have hnow : (inputNow s).clock = .now now := by rw [inputNow_of_iterates hit, hclock]
  obtain ⟨u, hu⟩ := instrPart_next s
  refine ⟨u, timerPart (fireTimer s) (.now now) u, ?_, ?_, ?_, ?_, hclock ▸ step_of_iterates hit hu⟩
  · intro hfire
    obtain ⟨w, hw, rfl⟩ := instrStep_of_instrPart ((fireInstr_now hnow).trans (decide_eq_true hfire)) hu
    exact ⟨w, hw, by rw [hnow]; rfl⟩
  · intro hidle
    rw [instrPart_idle ((fireInstr_now hnow).trans (decide_eq_false (not_lt.2 hidle)))] at hu
    cases hu
    rfl
  · intro hfire
    rw [fireTimer_now hnow, decide_eq_true hfire]
    rfl
  · intro hidle
    rw [fireTimer_now hnow, decide_eq_false (not_lt.2 hidle)]
    rfl

/-- Settles O13: the halves of the iteration, each by its flag; a flag stamps nothing. -/
theorem iterationFollowsTheFireFlags : Obligations.IterationFollowsTheFireFlags := by
  unfold Obligations.IterationFollowsTheFireFlags
  intro s h rest fi ft hit hclock
  have hnow : (inputNow s).clock = .fire fi ft := by rw [inputNow_of_iterates hit, hclock]
  obtain ⟨u, hu⟩ := instrPart_next s
  have hstep := step_of_iterates hit hu
  rw [fireTimer_fire hnow, hclock] at hstep
  refine ⟨u, timerPart ft (.fire fi ft) u, ?_, ?_, ?_, ?_, hstep⟩
  · intro hfi
    obtain ⟨w, hw, rfl⟩ := instrStep_of_instrPart ((fireInstr_fire hnow).trans hfi) hu
    rw [hnow]
    exact hw
  · intro hfi
    rw [instrPart_idle ((fireInstr_fire hnow).trans hfi)] at hu
    cases hu
    rfl
  · rintro rfl; rfl
  · rintro rfl; rfl

/-- Settles O14: the stopping pass, and then a machine that steps to itself. -/
theorem schedulerStopsWhenContinueIsFalse : Obligations.SchedulerStopsWhenContinueIsFalse := by
  unfold Obligations.SchedulerStopsWhenContinueIsFalse
  exact fun s k hs hc => ⟨_, step_stops hs hc, rfl, run_stopped rfl k⟩

/-- Settles O15: `HaltedAs s` holds of `s`, and every step keeps it. -/
theorem haltedIsLeftOnlyByReset : Obligations.HaltedIsLeftOnlyByReset := by
  unfold Obligations.HaltedIsLeftOnlyByReset
  intro s h
  have start : HaltedAs s s := ⟨rfl, rfl, rfl, h⟩
  exact ⟨instrStep_halted h, timerStep_halted h, fun k => run_induction (fun _ _ => HaltedAs.step) k start⟩

/-- Settles O16, by the effects of `exec`. -/
theorem faultsAndAnomaliesWriteNothingElse : Obligations.FaultsAndAnomaliesWriteNothingElse := by
  unfold Obligations.FaultsAndAnomaliesWriteNothingElse
  intro i s t h
  have e := exec_effect h
  refine ⟨fun hfault => ?_, fun hhalt hlive => ?_, e.out_or_anomaly.resolve_left⟩
  · exact e.faulted_or_not.resolve_right fun ⟨hsame, _⟩ => hfault hsame
  · obtain ⟨code, addr, rfl⟩ := e.faulted_or_not.resolve_right fun ⟨_, hback⟩ => hlive (hback hhalt)
    exact ⟨rfl, code, addr, rfl⟩

/-- Settles O10: the instruction step fetches the word of the two bytes, and its decoded instruction
answers. -/
theorem stepRunsTheDecodedInstruction : Obligations.StepRunsTheDecodedInstruction := by
  unfold Obligations.StepRunsTheDecodedInstruction
  intro s i hs hc hfire hrun hpc hdec
  obtain ⟨t, ht⟩ := exec_next i { s with pc := s.pc + 2#16, out := {} }
  have hfetch : instrStep (clearOutputs s) = .next t := by
    rw [instrStep_running (s := clearOutputs s) hrun, fetchExecute_ok (s := clearOutputs s) (not_lt.2 hpc)]
    exact (execute_ok hdec).trans ht
  have hinstr : instrPart s = .next (stampInstr (inputNow s).clock t) := by
    rw [instrPart_fires hfire, hfetch, mapNext_next]
  rw [step_iterates hs hc hinstr, ht, mapNext_next]

/-- Settles O11, by PC against the last address that can be fetched from. -/
theorem fetchReadsTwoBytesAndAdvancesPc : Obligations.FetchReadsTwoBytesAndAdvancesPc := by
  unfold Obligations.FetchReadsTwoBytesAndAdvancesPc
  intro s hrun
  rw [instrStep_running hrun]
  constructor
  · intro hpc
    rw [fetchExecute_ok (by omega), readWord_eq_ofNat, advance_eq_ofNat]
  · intro hpc
    rw [fetchExecute_fault (by omega)]
    rfl
end

section
/-! Fair hosts (R402): a run of iterations that perform no instruction step, or one that resolves no wait,
counts the timers down once per timer step and leaves everything else as it is. -/

namespace Sys2Proof.Laws
open Sys2Proof Sys2Proof.Machine

variable {s t u : State} {h : Nat → HostInput}

/-! ## Iterations that perform the timer step at most -/

/-- The iteration that performs no instruction step, and the timer step if `ft`. -/
def timerIteration (ft : Bool) (s : State) : State :=
  consumeInput (if ft then timerStep (clearOutputs s) else clearOutputs s)

/-- `u` is `s` but for the timers, the outputs, the inputs used up and the tick. -/
def OnlyTimersDiffer (s u : State) : Prop :=
  u = { s with dt := u.dt, st := u.st, out := u.out, inputs := u.inputs, tick := u.tick }

theorem OnlyTimersDiffer.trans (hsu : OnlyTimersDiffer s u) (hut : OnlyTimersDiffer u t) :
    OnlyTimersDiffer s t :=
  calc t
    _ = { u with dt := t.dt, st := t.st, out := t.out, inputs := t.inputs, tick := t.tick } := hut
    _ = { s with dt := t.dt, st := t.st, out := t.out, inputs := t.inputs, tick := t.tick } := by rw [hsu]

theorem OnlyTimersDiffer.execState_eq (hsu : OnlyTimersDiffer s u) : u.execState = s.execState := by
  rw [hsu]

theorem OnlyTimersDiffer.scheduler_eq (hsu : OnlyTimersDiffer s u) : u.scheduler = s.scheduler := by
  rw [hsu]

theorem timerIteration_onlyTimersDiffer (ft : Bool) (s : State) :
    OnlyTimersDiffer s (timerIteration ft s) := by
  cases ft with
  | false => rfl
  | true =>
    by_cases he : s.execState = .halted
    · rw [timerIteration, if_pos rfl, timerStep_halted (s := clearOutputs s) he]; rfl
    · rw [timerIteration, if_pos rfl, timerStep_of_not_halted (s := clearOutputs s) he]; rfl

@[simp] theorem timerIteration_inputs (ft : Bool) (s : State) :
    (timerIteration ft s).inputs = s.inputs.tail := by
  cases ft
  · rfl
  · simp [timerIteration, (timerStep_keeps (clearOutputs s)).1]

/-- Outside Halted a timer step counts both timers down by one (R640). -/
theorem timerIteration_timers (ft : Bool) (he : s.execState ≠ .halted) :
    (timerIteration ft s).dt.toNat = s.dt.toNat - ft.toNat ∧
      (timerIteration ft s).st.toNat = s.st.toNat - ft.toNat := by
  cases ft with
  | false => exact ⟨rfl, rfl⟩
  | true =>
    rw [timerIteration, if_pos rfl, timerStep_of_not_halted (s := clearOutputs s) he]
    exact ⟨countDown_toNat s.dt, countDown_toNat s.st⟩

/-- FIRE_TIMER of the abstract iteration (R402). -/
def timerFlag : ClockInput → Bool
  | .now _ => false
  | .fire _ ft => ft

/-- On the input `x`, whatever the timers, the outputs and the tick of `s`, the iteration performs the timer step
at most. -/
def OnlyTimerStepOn (s : State) (x : HostInput) : Prop :=
  ∀ u rest, OnlyTimersDiffer s u → u.inputs = x :: rest →
    step u = .next (timerIteration (timerFlag x.clock) u)

theorem onlyTimerStepOn_of_no_instr {x : HostInput} {ft : Bool} (hs : s.scheduler = .iterating)
    (hc : x.cont = true) (hf : x.clock = .fire false ft) : OnlyTimerStepOn s x := by
  intro u rest hsu hin
  rw [step_without_instr (hsu.scheduler_eq.trans hs) hin hc hf, hf]
  rfl

theorem onlyTimerStepOn_of_wait {x : HostInput} {fi ft : Bool} {r : RegIx} (hs : s.scheduler = .iterating)
    (hwait : s.execState = .waitingForKey r) (hc : x.cont = true) (hk : x.keyPress = none)
    (hf : x.clock = .fire fi ft) : OnlyTimerStepOn s x := by
  intro u rest hsu hin
  rw [step_in_wait (hsu.scheduler_eq.trans hs) (hsu.execState_eq.trans hwait) hin hc hk hf, hf]
  rfl

/-! ## Runs on a host's inputs -/

theorem hostInputs_succ_last (h : Nat → HostInput) (n k : Nat) :
    hostInputs h n (k + 1) = hostInputs h n k ++ [h (n + k)] := by
  simp [hostInputs, List.range'_1_concat]

/-- A run of one more step, at its end. -/
theorem run_succ_last {k : Nat} (hrun : Sys2Proof.core.run k s = .next u) (hstep : step u = .next t) :
    Sys2Proof.core.run (k + 1) s = .next t := by
  induction k generalizing s with
  | zero => cases hrun; exact run_succ 0 hstep
  | succ k ih =>
    obtain ⟨v, hv⟩ := step_next s
    rw [run_succ k hv] at hrun
    rw [run_succ (k + 1) hv]
    exact ih hrun

/-- A run whose iterations perform the timer step at most counts the timers down once for every FIRE_TIMER
among its inputs. -/
theorem run_timerIterations {k : Nat} {rest : List HostInput}
    (hiter : ∀ m < k, OnlyTimerStepOn s (h m))
    (hin : s.inputs = hostInputs h 0 k ++ rest) :
    ∃ u : State, Sys2Proof.core.run k s = .next u ∧ u.inputs = rest ∧ OnlyTimersDiffer s u ∧
      (s.execState ≠ .halted →
        u.dt.toNat = s.dt.toNat - Nat.count (fun m => timerFlag (h m).clock) k ∧
        u.st.toNat = s.st.toNat - Nat.count (fun m => timerFlag (h m).clock) k) := by
  induction k generalizing rest with
  | zero => exact ⟨s, rfl, hin, rfl, fun _ => ⟨by simp, by simp⟩⟩
  | succ k ih =>
    have hin' : s.inputs = hostInputs h 0 k ++ h k :: rest := by
      rw [hin, hostInputs_succ_last, Nat.zero_add, List.append_assoc, List.singleton_append]
    obtain ⟨u, hrun, hu, hsu, htimers⟩ := ih (fun m hm => hiter m (by omega)) hin'
    have hstep := hiter k (Nat.lt_add_one k) u rest hsu hu
    refine ⟨_, run_succ_last hrun hstep, by rw [timerIteration_inputs, hu, List.tail_cons],
      hsu.trans (timerIteration_onlyTimersDiffer _ u), fun hlive => ?_⟩
    obtain ⟨hdt, hst⟩ := htimers hlive
    obtain ⟨hdt', hst'⟩ := timerIteration_timers (timerFlag (h k).clock) (hsu.execState_eq ▸ hlive)
    have hcount : Nat.count (fun m => timerFlag (h m).clock) (k + 1) =
        Nat.count (fun m => timerFlag (h m).clock) k + (timerFlag (h k).clock).toNat := by
      rw [Nat.count_succ, Bool.toNat, Bool.cond_eq_ite]
    exact ⟨by omega, by omega⟩

/-! ## What fairness gives -/

/-- Under a fair host the first iteration with FIRE_INSTR comes; every one before it has the flag false. -/
theorem exists_first_instr_of_fairHost (fair : FairHost h) (hc : ∀ n, (h n).cont = true) :
    ∃ k, (∃ ft, (h k).clock = .fire true ft) ∧ ∀ m < k, ∃ ft, (h m).clock = .fire false ft := by
  classical
  have hex : ∃ k, ∃ ft, (h k).clock = .fire true ft := by
    obtain ⟨k, -, hk⟩ := fair.instr hc 0
    exact ⟨k, hk⟩
  refine ⟨Nat.find hex, Nat.find_spec hex, fun m hm => ?_⟩
  obtain ⟨fi, ft, hfire⟩ := fair.flags m
  cases fi with
  | false => exact ⟨ft, hfire⟩
  | true => exact absurd ⟨ft, hfire⟩ (Nat.find_min hex hm)

/-- Under a fair host FIRE_TIMER comes any number of times. -/
theorem exists_timerFlag_count_of_fairHost (fair : FairHost h) (hc : ∀ n, (h n).cont = true) (c : Nat) :
    ∃ k, Nat.count (fun m => timerFlag (h m).clock) k = c := by
  have hinf : {m | timerFlag (h m).clock = true}.Infinite := by
    refine Set.infinite_of_forall_exists_gt fun n => ?_
    obtain ⟨m, hm, fi, hfire⟩ := fair.timer hc (n + 1)
    exact ⟨m, by simp [hfire, timerFlag], hm⟩
  exact ⟨_, Nat.count_nth_of_infinite hinf c⟩

end Sys2Proof.Laws

open Sys2Proof Sys2Proof.Machine Sys2Proof.Laws

/-- Settles O57: the iterations before the first FIRE_INSTR perform no instruction step. -/
theorem fairHostFiresTheNextInstructionStep : Obligations.FairHostFiresTheNextInstructionStep := by
  unfold Obligations.FairHostFiresTheNextInstructionStep
  intro h s fair hc hs
  obtain ⟨k, ⟨ft, hfire⟩, hbefore⟩ := exists_first_instr_of_fairHost fair hc
  have hiter : ∀ m < k, OnlyTimerStepOn (setInputs s (hostInputs h 0 (k + 1))) (h m) := fun m hm =>
    let ⟨_, hclock⟩ := hbefore m hm
    onlyTimerStepOn_of_no_instr hs (hc m) hclock
  have hin : hostInputs h 0 (k + 1) = hostInputs h 0 k ++ [h k] := by
    rw [hostInputs_succ_last, Nat.zero_add]
  obtain ⟨u, hrun, hu, honly, -⟩ := run_timerIterations hiter hin
  have hnow : inputNow u = h k := by rw [inputNow, hu]
  exact ⟨k, u, hrun, hu, by rw [hnow, hc], fireInstr_fire (by rw [hnow, hfire]), honly⟩

/-- Settles O58: an iteration of the wait performs the timer step at most, and after 255 timer steps both
timers are 0. -/
theorem fairHostRunsTheTimersOutInAWait : Obligations.FairHostRunsTheTimersOutInAWait := by
  unfold Obligations.FairHostRunsTheTimersOutInAWait
  intro h r s fair hc hkey hs hwait
  obtain ⟨k, hcount⟩ := exists_timerFlag_count_of_fairHost fair hc 255
  have hiter : ∀ m < k, OnlyTimerStepOn (setInputs s (hostInputs h 0 k)) (h m) := fun m _ =>
    let ⟨_, _, hclock⟩ := fair.flags m
    onlyTimerStepOn_of_wait hs hwait (hc m) (hkey m) hclock
  obtain ⟨u, hrun, -, honly, htimers⟩ := run_timerIterations hiter (List.append_nil _).symm
  have hlive : s.execState ≠ .halted := by rw [hwait]; simp
  obtain ⟨hdt, hst⟩ := htimers hlive
  have counted (b : Byte) : b.toNat - 255 = 0 := by omega
  rw [hcount, counted] at hdt hst
  exact ⟨k, u, hrun, BitVec.eq_of_toNat_eq hdt, BitVec.eq_of_toNat_eq hst, honly⟩
end

section
/-! Control transfer (R420 to R427): the jumps and the skips write PC alone, the stack instructions PC and the
stack, and the words of the classes 5 and 9 outside their rows. -/

namespace Sys2Proof.Laws
open Sys2Proof Sys2Proof.Machine Sys2Proof.Claims

variable {s : State} {w : Word}

/-! ## Jump targets, the stack and its faults -/

theorem zextAddr_toNat (nnn : Addr12) : (zextAddr nnn).toNat = nnn.toNat :=
  BitVec.toNat_setWidth_of_le (by decide)

/-- A push writes the entry at SP and keeps the other fifteen (R110). -/
theorem getElem_push_stack (a : Word) (h : s.sp.val < 16) (j : Fin 16) :
    (push s a h).stack[j] = if j.val = s.sp.val then a else s.stack[j] := by
  simp only [push_stack, Fin.getElem_fin, Vector.getElem_set, eq_comm (a := j.val)]

/-- A fault of an instruction is the statements' `faulted` of its word (R620). -/
theorem instrFault_eq_faulted (code : FaultCode) (i : Instr) (addr : Option Nat) :
    instrFault code i addr s = faulted code (encode i) addr s := rfl

/-! ## The skips (R408) -/

theorem skipIf_beq (a b : Byte) :
    skipIf (a == b) s = { s with pc := if a = b then s.pc + 2#16 else s.pc } := by
  simp only [skipIf, setPc, beq_iff_eq]

theorem skipIf_bne (a b : Byte) :
    skipIf (a != b) s = { s with pc := if a = b then s.pc else s.pc + 2#16 } := by
  simp only [skipIf, setPc, bne_iff_ne, ite_not]

/-! ## The classes 5 and 9 -/

/-- The mask 0x000F keeps n3 alone. -/
theorem and_000F (w : Word) : w &&& 0x000F#16 = (nib3 w).setWidth 16 := by
  have h : (0x000F#16).toNat = 2 ^ 4 - 1 := rfl
  apply BitVec.eq_of_toNat_eq
  rw [BitVec.toNat_and, h, Nat.and_two_pow_sub_one_eq_mod]
  simp only [nib3, BitVec.toNat_setWidth, BitVec.extractLsb'_toNat, Nat.shiftRight_zero]
  omega

/-- A word of class 5 or 9 whose n3 is not 0 is no instruction (R311, R321). -/
theorem decodeWord_unrecognized_of_nib3 (h0 : nib0 w = 0x5#4 ∨ nib0 w = 0x9#4) (h3 : nib3 w ≠ 0x0#4) :
    decodeWord w = .error (.unrecognized w) := by
  rcases h0 with h0 | h0 <;> simp [decodeWord, h0, h3]

end Sys2Proof.Laws

open Sys2Proof Sys2Proof.Machine Sys2Proof.Laws

/-- Settles O17, by SP against 0. -/
theorem returnPopsTheStackIntoPc : Obligations.ReturnPopsTheStackIntoPc := by
  unfold Obligations.ReturnPopsTheStackIntoPc
  refine ⟨?_, ?_, ?_⟩
  · rintro w rfl
    exact decodeWord_encode .ret
  · intro s hlive
    have hsp : s.sp ≠ 0 := Fin.pos_iff_ne_zero.1 hlive
    exact ⟨_, execRet_ok hsp, rfl, rfl, rfl⟩
  · intro s hempty
    rw [execRet_fault hempty, instrFault_eq_faulted]
    rfl

/-- Settles O18: the 16-bit extension of nnn keeps its value. -/
theorem jumpSetsPcToTheAddress : Obligations.JumpSetsPcToTheAddress := by
  unfold Obligations.JumpSetsPcToTheAddress
  exact ⟨rowDecodes (.jp 0), fun nnn s => ⟨setPc s (zextAddr nnn), rfl, zextAddr_toNat nnn, rfl⟩⟩

/-- Settles O19, by SP against the stack's 16 entries. -/
theorem callPushesTheReturnAddress : Obligations.CallPushesTheReturnAddress := by
  unfold Obligations.CallPushesTheReturnAddress
  refine ⟨rowDecodes (.call 0), ?_, ?_⟩
  · intro nnn s hroom
    exact ⟨_, execCall_ok nnn hroom, rfl, zextAddr_toNat nnn, getElem_push_stack s.pc hroom, rfl⟩
  · intro nnn s hfull
    rw [execCall_fault nnn (by omega), instrFault_eq_faulted]
    rfl

/-- Settles O20: SE skips on the test `==`, SNE on `!=`. -/
theorem immediateSkipsCompareVxWithKk : Obligations.ImmediateSkipsCompareVxWithKk := by
  unfold Obligations.ImmediateSkipsCompareVxWithKk
  refine ⟨rowDecodes (.seImm 0 0), rowDecodes (.sneImm 0 0), fun x kk s => ⟨?_, ?_⟩⟩
  · exact congrArg Host.Outcome.next (skipIf_beq (getV s x) kk)
  · exact congrArg Host.Outcome.next (skipIf_bne (getV s x) kk)

/-- Settles O21: SE skips on the test `==`, SNE on `!=`; outside their rows the classes have no instruction. -/
theorem registerSkipsCompareVxWithVy : Obligations.RegisterSkipsCompareVxWithVy := by
  unfold Obligations.RegisterSkipsCompareVxWithVy
  refine ⟨rowDecodes (.seReg 0 0), rowDecodes (.sneReg 0 0), ?_, fun x y s => ⟨?_, ?_⟩⟩
  · intro w hclass hlow
    have h0 : nib0 w = 0x5#4 ∨ nib0 w = 0x9#4 := hclass.imp nib0_of_and_F000 nib0_of_and_F000
    have h3 : nib3 w ≠ 0x0#4 := fun h => hlow ((and_000F w).trans (by rw [h]; rfl))
    exact decodeWord_unrecognized_of_nib3 h0 h3
  · exact congrArg Host.Outcome.next (skipIf_beq (getV s x) (getV s y))
  · exact congrArg Host.Outcome.next (skipIf_bne (getV s x) (getV s y))

/-- Settles O22: the sum of 12 and 8 bits does not reach 2^16. -/
theorem offsetJumpAddsV0Exactly : Obligations.OffsetJumpAddsV0Exactly := by
  unfold Obligations.OffsetJumpAddsV0Exactly
  refine ⟨rowDecodes (.jpV0 0), fun nnn s => ?_⟩
  exact ⟨setPc s (offsetTarget s nnn), rfl, offsetTarget_toNat nnn, offsetTarget_toNat_le nnn, rfl⟩
end

section
/-! The ALU (R440 to R455): a result goes to Vx alone, or to Vx and then a flag to VF, and each result is the
number modulo 256 that the spec's exact integers give. -/

namespace Sys2Proof.Laws
open Sys2Proof Sys2Proof.Machine Sys2Proof.Claims

variable {i : Instr} {s : State} {x : RegIx} {a b r f flag : Byte}

/-! ## What the two register writes change -/

/-- A meaning that ends in a register write changes that register alone (R16). -/
theorem registerWritten_of_exec (h : exec i s = .next (setV s x r)) (hr : r = b) :
    ∃ t, exec i s = .next t ∧ RegisterWritten x b s t := by
  subst hr
  exact ⟨setV s x r, h, getV_setV_same s x r, fun _ hj => getV_setV_ne s r hj, rfl⟩

theorem getV_setWithFlag_vf (x : RegIx) (r f : Byte) : getV (setWithFlag s x r f) 15 = f := by
  rw [getV_setWithFlag, if_pos rfl]

theorem getV_setWithFlag_dest (r f : Byte) (hx : x ≠ 15) : getV (setWithFlag s x r f) x = r := by
  rw [getV_setWithFlag, if_neg hx, if_pos rfl]

/-- A meaning that ends in the flag-last write changes Vx and VF alone, and VF holds the flag (R104). -/
theorem flaggedWritten_of_exec (h : exec i s = .next (setWithFlag s x r f)) (hr : r = b) (hf : f = flag) :
    ∃ t, exec i s = .next t ∧ FlaggedWritten x b flag s t := by
  subst hr hf
  exact ⟨setWithFlag s x r f, h, getV_setWithFlag_vf x r f, getV_setWithFlag_dest r f,
    fun _ hx hvf => getV_setWithFlag_ne r f (not_or.2 ⟨hx, hvf⟩), rfl⟩

/-! ## The results as exact integers modulo 256 (R13) -/

theorem add_eq_ofNat_mod (a b : Byte) : a + b = BitVec.ofNat 8 ((a.toNat + b.toNat) % 256) := by
  apply BitVec.eq_of_toNat_eq
  simp only [BitVec.toNat_add, BitVec.toNat_ofNat]
  omega

theorem sub_eq_ofNat_mod (a b : Byte) : a - b = BitVec.ofNat 8 ((a.toNat + 256 - b.toNat) % 256) := by
  apply BitVec.eq_of_toNat_eq
  have := b.isLt
  simp only [BitVec.toNat_sub, BitVec.toNat_ofNat]
  omega

theorem shiftRight_one_eq_ofNat_div (a : Byte) : a >>> 1 = BitVec.ofNat 8 (a.toNat / 2) := by
  apply BitVec.eq_of_toNat_eq
  simp only [BitVec.toNat_ushiftRight, Nat.shiftRight_eq_div_pow, BitVec.toNat_ofNat]
  omega

theorem shiftLeft_one_eq_ofNat_mod (a : Byte) : a <<< 1 = BitVec.ofNat 8 (a.toNat * 2 % 256) := by
  apply BitVec.eq_of_toNat_eq
  simp only [BitVec.toNat_shiftLeft, Nat.shiftLeft_eq, BitVec.toNat_ofNat]
  omega

/-! ## The flag of a subtraction (R447) -/

theorem greaterFlag_eq_one_iff (a b : Byte) : greaterFlag a b = 1#8 ↔ b.toNat < a.toNat := by
  rw [greaterFlag, flagByte_eq_one, decide_eq_true_iff]

theorem greaterFlag_zero_or_one (a b : Byte) : greaterFlag a b = 0#8 ∨ greaterFlag a b = 1#8 :=
  flagByte_zero_or_one _

/-! ## The draw (R152, R451) -/

/-- Whatever the state, there is a script with a given byte on RAND in the coming iteration. -/
theorem exists_inputs_rand (r : Byte) (s : State) : ∃ ins, (inputNow { s with inputs := ins }).rand = r :=
  ⟨[{ inputNow s with rand := r }], rfl⟩

end Sys2Proof.Laws

open Sys2Proof Sys2Proof.Machine Sys2Proof.Laws

/-- Settles O23: each is one register write, the sum taken modulo 256. -/
theorem immediateLoadAndAddWriteVxOnly : Obligations.ImmediateLoadAndAddWriteVxOnly := by
  unfold Obligations.ImmediateLoadAndAddWriteVxOnly
  refine ⟨rowDecodes (.ldImm 0 0), rowDecodes (.addImm 0 0), fun x kk s => ⟨?_, ?_⟩⟩
  · exact registerWritten_of_exec rfl rfl
  · exact registerWritten_of_exec rfl (add_eq_ofNat_mod (getV s x) kk)

/-- Settles O24: each is one register write, with the operation's own result. -/
theorem copyAndLogicWriteVxOnly : Obligations.CopyAndLogicWriteVxOnly := by
  unfold Obligations.CopyAndLogicWriteVxOnly
  refine ⟨rowDecodes (.ldReg 0 0), rowDecodes (.orReg 0 0), rowDecodes (.andReg 0 0),
    rowDecodes (.xorReg 0 0), fun x y s => ⟨?_, ?_, ?_, ?_⟩⟩
  · exact registerWritten_of_exec rfl rfl
  · exact registerWritten_of_exec rfl rfl
  · exact registerWritten_of_exec rfl rfl
  · exact registerWritten_of_exec rfl rfl

/-- Settles O25: a flag-last write of the sum and the carry. -/
theorem addSetsVfToTheCarry : Obligations.AddSetsVfToTheCarry := by
  unfold Obligations.AddSetsVfToTheCarry
  exact ⟨rowDecodes (.addReg 0 0), fun x y s =>
    flaggedWritten_of_exec rfl (add_eq_ofNat_mod (getV s x) (getV s y)) (carryFlag_eq (getV s x) (getV s y))⟩

/-- Settles O26: flag-last writes of the difference and the strict comparison, the operands exchanged in SUBN. -/
theorem subtractionsSetVfWhenStrictlyGreater : Obligations.SubtractionsSetVfWhenStrictlyGreater := by
  unfold Obligations.SubtractionsSetVfWhenStrictlyGreater
  refine ⟨rowDecodes (.subReg 0 0), rowDecodes (.subnReg 0 0), fun x y s => ⟨?_, ?_⟩⟩
  · exact flaggedWritten_of_exec rfl (sub_eq_ofNat_mod (getV s x) (getV s y))
      (greaterFlag_eq (getV s x) (getV s y))
  · exact flaggedWritten_of_exec rfl (sub_eq_ofNat_mod (getV s y) (getV s x))
      (greaterFlag_eq (getV s y) (getV s x))

/-- Settles O27: flag-last writes of the half and the double of Vx and of the bit that leaves it. -/
theorem shiftsSetVfToTheBitShiftedOut : Obligations.ShiftsSetVfToTheBitShiftedOut := by
  unfold Obligations.ShiftsSetVfToTheBitShiftedOut
  refine ⟨rowDecodes (.shr 0 0), rowDecodes (.shl 0 0), fun x y s => ⟨?_, ?_⟩⟩
  · exact flaggedWritten_of_exec rfl (shiftRight_one_eq_ofNat_div (getV s x)) (lowBitFlag_eq (getV s x))
  · exact flaggedWritten_of_exec rfl (shiftLeft_one_eq_ofNat_mod (getV s x)) (highBitFlag_eq (getV s x))

/-- Settles O29: the addition leaves the sum in Vx and keeps Vy, so the subtraction takes Vy off again. -/
theorem addThenSubtractRestoresVx : Obligations.AddThenSubtractRestoresVx := by
  unfold Obligations.AddThenSubtractRestoresVx
  intro x y s t u hx hy hxy hadd hsub
  have hsum : getV t x = getV s x + getV s y := by
    cases hadd; exact getV_setWithFlag_dest _ _ hx
  have hkept : getV t y = getV s y := by
    cases hadd; exact getV_setWithFlag_ne _ _ (not_or.2 ⟨hxy.symm, hy⟩)
  have hdiff : getV u x = getV t x - getV t y := by
    cases hsub; exact getV_setWithFlag_dest _ _ hx
  have hflag : getV u 15 = greaterFlag (getV t x) (getV t y) := by
    cases hsub; exact getV_setWithFlag_vf ..
  rw [hdiff, hflag, hsum, hkept]
  refine ⟨BitVec.add_sub_cancel .., ?_, greaterFlag_zero_or_one ..⟩
  exact (greaterFlag_eq_one_iff ..).trans (by rw [BitVec.toNat_add])

/-- Settles O28: one register write of the masked draw, which a host chooses freely. -/
theorem randomWritesTheMaskedDraw : Obligations.RandomWritesTheMaskedDraw := by
  unfold Obligations.RandomWritesTheMaskedDraw
  exact ⟨rowDecodes (.rnd 0 0), fun _ _ _ => registerWritten_of_exec rfl rfl, exists_inputs_rand⟩
end

section
/-! The index register and the accesses through I (R470 to R475): the bytes that a store leaves, the registers
that a block load leaves, and the block load of bytes that the registers already hold. -/

namespace Sys2Proof.Laws
open Sys2Proof Sys2Proof.Machine Sys2Proof.Claims

variable {s : State} {x j : RegIx} {a : Nat}

/-! ## The index register -/

/-- The sum of Fx1E is taken modulo 2^16 (R471). -/
theorem add_zextByte_toNat (i : Word) (b : Byte) :
    (i + zextByte b).toNat = (i.toNat + b.toNat) % 65536 := by
  rw [BitVec.toNat_add, BitVec.toNat_setWidth_of_le (by decide)]

/-! ## The bytes after a store -/

theorem byteAfterStore_inside (h : j ≤ x) : byteAfterStore s x (s.i.toNat + j.val) = getV s j := by
  rw [Fin.le_def] at h
  rw [byteAfterStore, if_pos (by omega), Nat.add_sub_cancel_left, Fin.ofNat_val_eq_self]

theorem byteAfterStore_outside (h : a < s.i.toNat ∨ s.i.toNat + x.val < a) :
    byteAfterStore s x a = Memory.read s.mem a := if_neg (by omega)

theorem byteAfterBcd_hundreds (s : State) (x : RegIx) :
    (byteAfterBcd s x s.i.toNat).toNat = (getV s x).toNat / 100 := by
  have := (getV s x).isLt
  rw [byteAfterBcd, if_pos rfl, BitVec.toNat_ofNat, Nat.mod_eq_of_lt (by omega)]

theorem byteAfterBcd_tens (s : State) (x : RegIx) :
    (byteAfterBcd s x (s.i.toNat + 1)).toNat = (getV s x).toNat / 10 % 10 := by
  rw [byteAfterBcd, if_neg (by omega), if_pos rfl, BitVec.toNat_ofNat, Nat.mod_eq_of_lt (by omega)]

theorem byteAfterBcd_ones (s : State) (x : RegIx) :
    (byteAfterBcd s x (s.i.toNat + 2)).toNat = (getV s x).toNat % 10 := by
  rw [byteAfterBcd, if_neg (by omega), if_neg (by omega), if_pos rfl, BitVec.toNat_ofNat,
    Nat.mod_eq_of_lt (by omega)]

theorem byteAfterBcd_outside (h : a < s.i.toNat ∨ s.i.toNat + 2 < a) :
    byteAfterBcd s x a = Memory.read s.mem a := by
  rw [byteAfterBcd, if_neg (by omega), if_neg (by omega), if_neg (by omega)]

/-! ## The registers after a block load -/

/-- A block load of V0 to Vx, by the register's index against x (R475). -/
theorem getV_loadRegs_ite (s : State) (x j : RegIx) :
    getV (((List.finRange 16).take (x.val + 1)).foldl loadReg s) j =
      if j ≤ x then Memory.read s.mem (s.i.toNat + j.val) else getV s j := by
  simp only [getV_loadRegs (x.val + 1) x.isLt, Nat.lt_succ_iff, Fin.le_def]

/-- A block load of bytes that the registers already hold changes nothing. -/
theorem loadRegs_eq_self (h : ∀ j, j ≤ x → Memory.read s.mem (s.i.toNat + j.val) = getV s j) :
    ((List.finRange 16).take (x.val + 1)).foldl loadReg s = s := by
  have hv : (((List.finRange 16).take (x.val + 1)).foldl loadReg s).v = s.v := by
    refine v_ext fun j => ?_
    rw [getV_loadRegs_ite]
    split_ifs with hj
    · exact h j hj
    · rfl
  rw [foldl_loadReg_frame, hv]

end Sys2Proof.Laws

open Sys2Proof Sys2Proof.Machine Sys2Proof.Laws

/-- Settles O32: each is one write of I. -/
theorem indexInstructionsWriteIOnly : Obligations.IndexInstructionsWriteIOnly := by
  unfold Obligations.IndexInstructionsWriteIOnly
  refine ⟨rowDecodes (.ldI 0), rowDecodes (.addI 0), rowDecodes (.ldF 0), ?_, fun x s => ⟨?_, ?_⟩⟩
  · exact fun nnn s => ⟨setI s (zextAddr nnn), rfl, zextAddr_toNat nnn, rfl⟩
  · exact ⟨setI s (s.i + zextByte (getV s x)), rfl, add_zextByte_toNat s.i (getV s x), rfl⟩
  · exact ⟨setI s (glyphAddress (getV s x)), rfl, glyphAddress_toNat (getV s x), rfl⟩

/-- Settles O33, by the range of the three bytes: memory after the store reads as `byteAfterBcd`. -/
theorem bcdStoresThreeDigitsAtI : Obligations.BcdStoresThreeDigitsAtI := by
  unfold Obligations.BcdStoresThreeDigitsAtI
  refine ⟨rowDecodes (.ldB 0), ?_, ?_⟩
  · intro x s hwf hin
    refine ⟨_, execLdB_ok x hin, ?_, ?_, ?_, fun a ha => ?_, rfl⟩ <;>
      rw [setMem_mem, read_store_bcdDigits hwf hin]
    · exact byteAfterBcd_hundreds s x
    · exact byteAfterBcd_tens s x
    · exact byteAfterBcd_ones s x
    · exact byteAfterBcd_outside ha
  · intro x s hout
    rw [execLdB_fault x hout, instrFault_eq_faulted]
    rfl

/-- Settles O34, by the range of the block: memory after the store reads as `byteAfterStore`. -/
theorem blockStoreWritesV0ToVxAtI : Obligations.BlockStoreWritesV0ToVxAtI := by
  unfold Obligations.BlockStoreWritesV0ToVxAtI
  refine ⟨rowDecodes (.storeRegs 0), ?_, ?_⟩
  · intro x s hwf hin
    refine ⟨_, execStoreRegs_ok x hin, fun j hj => ?_, fun a ha => ?_, rfl⟩ <;>
      rw [setMem_mem, read_store_regsUpTo hwf hin]
    · exact byteAfterStore_inside hj
    · exact byteAfterStore_outside ha
  · intro x s hout
    rw [execStoreRegs_fault x hout, instrFault_eq_faulted]
    rfl

/-- Settles O35, by the range of the block. -/
theorem blockLoadReadsV0ToVxAtI : Obligations.BlockLoadReadsV0ToVxAtI := by
  unfold Obligations.BlockLoadReadsV0ToVxAtI
  refine ⟨rowDecodes (.loadRegs 0), ?_, ?_⟩
  · intro x s hin
    exact ⟨_, execLoadRegs_ok x hin, getV_loadRegs_ite s x, foldl_loadReg_frame _⟩
  · intro x s hout
    rw [execLoadRegs_fault x hout, instrFault_eq_faulted]
    rfl

/-- Settles O36: after the store each byte of the block is the register that the load writes it to. -/
theorem blockStoreThenLoadRestoresRegisters : Obligations.BlockStoreThenLoadRestoresRegisters := by
  unfold Obligations.BlockStoreThenLoadRestoresRegisters
  intro x s hwf hin
  let t := setMem s (Memory.writeBytes s.mem s.i.toNat (regsUpTo s x))
  have hheld : ∀ j, j ≤ x → Memory.read t.mem (t.i.toNat + j.val) = getV t j := fun j hj =>
    (read_store_regsUpTo hwf hin).trans (byteAfterStore_inside hj)
  have hload : exec (.loadRegs x) t = .next t := by
    rw [execLoadRegs_ok (s := t) x hin, loadRegs_eq_self hheld]
  exact ⟨t, execStoreRegs_ok x hin, hload, rfl⟩
end

section
/-! The display (R490 to R496): which pixels a draw flips and when it collides, read off the compositor's laws;
a second draw from the same registers sees the same sprite, so it flips the same pixels back. -/

namespace Sys2Proof.Laws
open Sys2Proof Sys2Proof.Machine Sys2Proof.Claims

variable {s : State} {x y : RegIx} {n : Fin 16} {px py : Nat}

/-! ## The sprite's pixels and the canvas of a draw -/

/-- The statements' sprite is the compositor's, at I and at the coordinates in Vx and Vy. -/
theorem spriteOn_iff_spriteRowsOn :
    SpriteOn s x y n px py ↔
      SpriteRowsOn s.mem s.i.toNat (getV s x).toNat (getV s y).toNat n.val px py := Iff.rfl

theorem spriteOn_lt (h : SpriteOn s x y n px py) : px < 64 ∧ py < 32 :=
  spriteRowsOn_lt (spriteOn_iff_spriteRowsOn.1 h)

/-- A draw flips exactly the pixels under the sprite's set bits (R491). -/
theorem pixel_drawn_iff (hx : px < 64) (hy : py < 32) :
    pixel (drawn s x y n).disp px py = true ↔
      ¬ (pixel s.disp px py = true ↔ SpriteOn s x y n px py) :=
  (drawSprite_spec _ _ _ _ _ _ (by omega)).1 px py hx hy

/-- A draw collides exactly where a set bit falls on a pixel that is on (R491). -/
theorem drawn_hit_iff :
    (drawn s x y n).hit = true ↔ ∃ px py, pixel s.disp px py = true ∧ SpriteOn s x y n px py := by
  simp only [(drawSprite_spec _ _ _ _ _ _ (show n.val ≤ 32 by omega)).2, Bool.false_eq_true, false_or,
    spriteOn_iff_spriteRowsOn, and_comm]

/-- No rows leave the canvas as it is (R495). -/
theorem drawn_zero (s : State) (x y : RegIx) : drawn s x y 0 = ⟨s.disp, false⟩ := rfl

/-! ## The state after a draw -/

/-- The state that `Dxyn` answers when the sprite's bytes lie below 4096: the canvas, then VF (R491). -/
def afterDraw (s : State) (x y : RegIx) (n : Fin 16) : State :=
  setV (setDisp s (drawn s x y n).disp) vf (flagByte (drawn s x y n).hit)

theorem exec_drw_eq_afterDraw (h : n = 0 ∨ s.i.toNat + n.val ≤ 4096) :
    exec (.drw x y n) s = .next (afterDraw s x y n) :=
  execDrw_ok x y n (h.imp_left (congrArg Fin.val))

@[simp] theorem afterDraw_disp : (afterDraw s x y n).disp = (drawn s x y n).disp := rfl
@[simp] theorem afterDraw_mem : (afterDraw s x y n).mem = s.mem := rfl
@[simp] theorem afterDraw_i : (afterDraw s x y n).i = s.i := rfl

theorem afterDraw_frame (s : State) (x y : RegIx) (n : Fin 16) :
    afterDraw s x y n = { s with disp := (afterDraw s x y n).disp, v := (afterDraw s x y n).v } := rfl

theorem getV_afterDraw_vf (s : State) (x y : RegIx) (n : Fin 16) :
    getV (afterDraw s x y n) 15 = flagByte (drawn s x y n).hit := getV_setV_same ..

theorem getV_afterDraw_ne {j : RegIx} (hj : j ≠ 15) : getV (afterDraw s x y n) j = getV s j :=
  (getV_setV_ne _ _ hj).trans (setDisp_getV ..)

/-- VF is 1 after a draw exactly when it collided. -/
theorem getV_afterDraw_vf_eq_one_iff :
    getV (afterDraw s x y n) 15 = 1 ↔ ∃ px py, pixel s.disp px py = true ∧ SpriteOn s x y n px py := by
  rw [getV_afterDraw_vf]
  exact (flagByte_eq_one _).trans drawn_hit_iff

/-! ## The second draw (R494) -/

/-- A draw leaves its own sprite where it was, unless Vx or Vy is the VF that it overwrites. -/
theorem spriteOn_afterDraw (hx : x ≠ 15) (hy : y ≠ 15) :
    SpriteOn (afterDraw s x y n) x y n px py ↔ SpriteOn s x y n px py := by
  simp only [SpriteOn, getV_afterDraw_ne hx, getV_afterDraw_ne hy, afterDraw_mem, afterDraw_i]

theorem afterDraw_afterDraw_disp (hx : x ≠ 15) (hy : y ≠ 15) :
    (afterDraw (afterDraw s x y n) x y n).disp = s.disp := by
  refine display_ext fun px py hpx hpy => ?_
  rw [afterDraw_disp, pixel_drawn_iff hpx hpy, spriteOn_afterDraw hx hy, afterDraw_disp,
    pixel_drawn_iff hpx hpy]
  tauto

/-- Where the sprite touched no pixel that was on, the first draw turns every touched pixel on, so the second
collides at each set bit. -/
theorem getV_afterDraw_afterDraw_vf_eq_one_iff (hx : x ≠ 15) (hy : y ≠ 15)
    (hoff : ∀ px py, SpriteOn s x y n px py → pixel s.disp px py = false) :
    getV (afterDraw (afterDraw s x y n) x y n) 15 = 1 ↔ ∃ px py, SpriteOn s x y n px py := by
  have turnedOn : ∀ px py, SpriteOn s x y n px py → pixel (drawn s x y n).disp px py = true := by
    intro px py hon
    obtain ⟨hpx, hpy⟩ := spriteOn_lt hon
    rw [pixel_drawn_iff hpx hpy]
    simp [hoff px py hon, hon]
  simp only [getV_afterDraw_vf_eq_one_iff, spriteOn_afterDraw hx hy, afterDraw_disp]
  exact exists₂_congr fun px py => and_iff_right_of_imp (turnedOn px py)

/-! ## The other instructions and the frame -/

theorem pixel_zero (x y : Nat) : pixel 0#2048 x y = false := BitVec.getLsbD_zero

/-- The rendered value of a pixel stands at its index (R496). -/
theorem render_getElem?_pixelIndex (p : Params) (d : Display) (hx : px < 64) (hy : py < 32) :
    (render p d)[pixelIndex px py]? = some (if pixel d px py = true then p.pixelOn else p.pixelOff) :=
  render_getElem? p d (pixelIndex_lt hx hy)

end Sys2Proof.Laws

open Sys2Proof Sys2Proof.Machine Sys2Proof.Laws

/-- Settles O39, by the range of the sprite's bytes: inside it the compositor's laws describe the canvas. -/
theorem drawFlipsTheSpritesPixels : Obligations.DrawFlipsTheSpritesPixels := by
  unfold Obligations.DrawFlipsTheSpritesPixels
  refine ⟨rowDecodes (.drw 0 0 0), ?_, ?_⟩
  · intro x y n s hin
    refine ⟨afterDraw s x y n, exec_drw_eq_afterDraw hin, fun _ _ => pixel_drawn_iff,
      getV_afterDraw_vf_eq_one_iff, ?_, fun _ => getV_afterDraw_ne, afterDraw_frame s x y n⟩
    rw [getV_afterDraw_vf]
    exact flagByte_zero_or_one _
  · intro x y n s hn hout
    rw [execDrw_fault x y n (Fin.pos_iff_ne_zero.2 hn) hout, instrFault_eq_faulted]
    rfl

/-- Settles O40: both draws flip the same pixels. -/
theorem drawingTwiceRestoresTheDisplay : Obligations.DrawingTwiceRestoresTheDisplay := by
  unfold Obligations.DrawingTwiceRestoresTheDisplay
  intro x y n s t u hx hy hin hfirst hsecond
  rw [exec_drw_eq_afterDraw hin] at hfirst
  cases hfirst
  have hin' : n = 0 ∨ (afterDraw s x y n).i.toNat + n.val ≤ 4096 := hin
  rw [exec_drw_eq_afterDraw hin'] at hsecond
  cases hsecond
  exact ⟨afterDraw_afterDraw_disp hx hy, getV_afterDraw_afterDraw_vf_eq_one_iff hx hy⟩

/-- Settles O38: CLS writes the display of no set bit. -/
theorem clearScreenTurnsEveryPixelOff : Obligations.ClearScreenTurnsEveryPixelOff := by
  unfold Obligations.ClearScreenTurnsEveryPixelOff
  refine ⟨?_, fun s => ⟨setDisp s 0#2048, rfl, fun x y _ _ => pixel_zero x y, rfl⟩⟩
  rintro w rfl
  exact decodeWord_encode .cls

/-- Settles O41: with no rows the canvas is untouched, so the flag write of 0 is all that remains. -/
theorem drawOfNoRowsClearsVfOnly : Obligations.DrawOfNoRowsClearsVfOnly := by
  unfold Obligations.DrawOfNoRowsClearsVfOnly
  intro x y s
  refine registerWritten_of_exec (r := flagByte false) ?_ rfl
  rw [exec_drw_eq_afterDraw (.inl rfl), afterDraw, drawn_zero]
  rfl

/-- Settles O42: the frame and the display share one index. -/
theorem frameIsTheDisplayRowByRow : Obligations.FrameIsTheDisplayRowByRow := by
  unfold Obligations.FrameIsTheDisplayRowByRow
  exact fun p d => ⟨length_render p d, fun _ _ => render_getElem?_pixelIndex p d⟩
end

section
/-! Keypad and timers (R510 to R522): the key skips, the moves between a timer and a register, the wait for a
key and its end, and a wait that no key press ends. -/

namespace Sys2Proof.Laws
open Sys2Proof Sys2Proof.Machine

variable {s t u : State} {r : RegIx} {k : Byte}

/-! ## The key test (R510, R511, R612) -/

theorem skipOnKey_mapped (wanted : Bool) (h : k.toNat ≤ 0xF) :
    skipOnKey wanted k s = skipIf (keyDown s k.toNat == wanted) s := if_neg (not_lt.2 h)

theorem skipOnKey_unmapped (wanted : Bool) (h : 0xF < k.toNat) :
    skipOnKey wanted k s = raiseAnomaly (.keyUnmapped (instrPc s) k) s := if_pos h

theorem skipIf_beq_true (c : Bool) :
    skipIf (c == true) s = { s with pc := if c = true then s.pc + 2#16 else s.pc } := by
  cases c <;> rfl

theorem skipIf_beq_false (c : Bool) :
    skipIf (c == false) s = { s with pc := if c = true then s.pc else s.pc + 2#16 } := by
  cases c <;> rfl

/-! ## What a step leaves of the script -/

/-- A step uses up one input, or none once the scheduler has stopped. -/
theorem step_inputs_drop (hstep : step s = .next t) : ∃ n ≤ 1, t.inputs = s.inputs.drop n := by
  cases hs : s.scheduler with
  | stopped =>
    rw [step_stopped hs] at hstep
    cases hstep
    exact ⟨0, Nat.zero_le 1, rfl⟩
  | iterating =>
    refine ⟨1, le_rfl, ?_⟩
    rw [List.drop_one]
    cases hc : (inputNow s).cont with
    | false =>
      rw [step_stops hs hc] at hstep
      cases hstep
      rfl
    | true =>
      obtain ⟨u, hu⟩ := instrPart_next s
      rw [step_iterates hs hc hu] at hstep
      cases hstep
      simp [instrPart_inputs hu]

theorem inputNow_mem_inputs (h : 0 < s.inputs.length) : inputNow s ∈ s.inputs := by
  obtain ⟨x, rest, hin⟩ := List.exists_cons_of_length_pos h
  simp [inputNow, hin]

/-! ## A wait without a key press (R520, R522) -/

/-- `t` waits for a key into Vr; its PC, registers, memory and display are those of `s`, and DT has not grown. -/
def WaitingAs (r : RegIx) (s t : State) : Prop :=
  t.execState = .waitingForKey r ∧ t.pc = s.pc ∧ t.v = s.v ∧ t.mem = s.mem ∧ t.disp = s.disp ∧
    t.dt.toNat ≤ s.dt.toNat

@[simp] theorem waitingAs_clearOutputs : WaitingAs r s (clearOutputs t) ↔ WaitingAs r s t := Iff.rfl
@[simp] theorem waitingAs_stopScheduler : WaitingAs r s (stopScheduler t) ↔ WaitingAs r s t := Iff.rfl
@[simp] theorem waitingAs_consumeInput : WaitingAs r s (consumeInput t) ↔ WaitingAs r s t := Iff.rfl

@[simp] theorem waitingAs_stampInstr (c : ClockInput) : WaitingAs r s (stampInstr c t) ↔ WaitingAs r s t := by
  cases c <;> rfl

@[simp] theorem waitingAs_stampTimer (c : ClockInput) : WaitingAs r s (stampTimer c t) ↔ WaitingAs r s t := by
  cases c <;> rfl

theorem WaitingAs.waiting (h : WaitingAs r s t) : t.execState = .waitingForKey r := by
  obtain ⟨hexec, -⟩ := h
  exact hexec

theorem WaitingAs.timerStep (h : WaitingAs r s t) : WaitingAs r s (timerStep t) := by
  obtain ⟨hexec, hpc, hv, hmem, hdisp, hdt⟩ := h
  rw [timerStep_of_not_halted (by simp [hexec])]
  exact ⟨hexec, hpc, hv, hmem, hdisp, by rw [countDown_toNat]; omega⟩

theorem WaitingAs.timerPart (fires : Bool) (c : ClockInput) (h : WaitingAs r s t) :
    WaitingAs r s (timerPart fires c t) := by
  cases fires
  · exact h
  · exact (waitingAs_stampTimer c).2 h.timerStep

theorem instrStep_waiting_none (hwait : s.execState = .waitingForKey r) (hk : (inputNow s).keyPress = none) :
    instrStep s = .next s := by
  rw [instrStep_waiting hwait, resolveWait_none hk]

theorem WaitingAs.step (h : WaitingAs r s t) (hk : (inputNow t).keyPress = none) (hstep : step t = .next u) :
    WaitingAs r s u := by
  have waiting : (clearOutputs t).execState = .waitingForKey r := h.waiting
  rcases step_cases hstep with ⟨-, rfl⟩ | ⟨-, -, rfl⟩ | ⟨-, -, v, hv, rfl⟩
  · exact h
  · simpa using h
  · refine waitingAs_consumeInput.2 (WaitingAs.timerPart _ _ ?_)
    rcases hv with ⟨-, w, hw, rfl⟩ | ⟨-, rfl⟩
    · rw [instrStep_waiting_none waiting hk] at hw
      cases hw
      simpa using h
    · simpa using h

/-- As long as the script lasts and reports no key press, the wait stays. -/
theorem WaitingAs.run {n : Nat} (h : WaitingAs r s t) (hn : n ≤ t.inputs.length)
    (hpress : ∀ x ∈ t.inputs, x.keyPress = none) :
    ∃ u, Sys2Proof.core.run n t = .next u ∧ WaitingAs r s u := by
  induction n generalizing t with
  | zero => exact ⟨t, rfl, h⟩
  | succ n ih =>
    obtain ⟨u, hu⟩ := step_next t
    have hnow : (inputNow t).keyPress = none := hpress _ (inputNow_mem_inputs (by omega))
    obtain ⟨m, hm, hin⟩ := step_inputs_drop hu
    rw [run_succ n hu]
    refine ih (h.step hnow hu) ?_ ?_
    · rw [hin, List.length_drop]; omega
    · rw [hin]; exact fun x hx => hpress x (List.mem_of_mem_drop hx)

end Sys2Proof.Laws

open Sys2Proof Sys2Proof.Machine Sys2Proof.Laws

/-- Settles O43, by Vx against the largest key value. -/
theorem keySkipsTestTheHeldKey : Obligations.KeySkipsTestTheHeldKey := by
  unfold Obligations.KeySkipsTestTheHeldKey
  refine ⟨rowDecodes (.skp 0), rowDecodes (.sknp 0), fun x s hkey => ⟨?_, ?_⟩, fun x s hnone => ⟨?_, ?_⟩⟩
  · exact congrArg Host.Outcome.next ((skipOnKey_mapped true hkey).trans (skipIf_beq_true _))
  · exact congrArg Host.Outcome.next ((skipOnKey_mapped false hkey).trans (skipIf_beq_false _))
  · exact congrArg Host.Outcome.next (skipOnKey_unmapped true hnone)
  · exact congrArg Host.Outcome.next (skipOnKey_unmapped false hnone)

/-- Settles O47: `WaitingAs r s` holds of `s`, and every step on an input without a key press keeps it. -/
theorem waitWithoutKeyPressNeverEnds : Obligations.WaitWithoutKeyPressNeverEnds := by
  unfold Obligations.WaitWithoutKeyPressNeverEnds
  intro r k s hwait hk hpress
  have start : WaitingAs r s s := ⟨hwait, rfl, rfl, rfl, rfl, le_rfl⟩
  exact start.run hk hpress

/-- Settles O44: each is one write, of a register or of a timer. -/
theorem timerInstructionsMoveOneByte : Obligations.TimerInstructionsMoveOneByte := by
  unfold Obligations.TimerInstructionsMoveOneByte
  exact ⟨rowDecodes (.ldVxDt 0), rowDecodes (.ldDtVx 0), rowDecodes (.ldStVx 0),
    fun x s => ⟨registerWritten_of_exec rfl rfl, rfl, rfl⟩⟩

/-- Settles O45: one write of EXEC. -/
theorem keyWaitBeginsAndChangesNothingElse : Obligations.KeyWaitBeginsAndChangesNothingElse := by
  unfold Obligations.KeyWaitBeginsAndChangesNothingElse
  exact ⟨rowDecodes (.ldVxK 0), fun x s => rfl⟩

/-- Settles O46, by KEYPRESS: with a digit, which a byte holds, one register write and one of EXEC. -/
theorem keyPressResolvesTheWait : Obligations.KeyPressResolvesTheWait := by
  unfold Obligations.KeyPressResolvesTheWait
  intro r s hwait
  refine ⟨instrStep_waiting_none hwait, fun d hd => ?_⟩
  refine ⟨setExec (setV s r (BitVec.ofNat 8 d.val)) .running, ?_, rfl, ?_, ?_, rfl⟩
  · rw [instrStep_waiting hwait, resolveWait_some hd]
  · have hdigit : d.val < 2 ^ 8 := by omega
    rw [setExec_getV, getV_setV_same, BitVec.toNat_ofNat, Nat.mod_eq_of_lt hdigit]
  · intro j hj
    rw [setExec_getV, getV_setV_ne s _ hj]
end

section
/-! Faults and anomalies by their causes (R610 to R627), and the timer step (R640). -/

namespace Sys2Proof.Laws
open Sys2Proof Sys2Proof.Machine

variable {i : Instr} {s t : State} {w : Word}

/-! ## The causes (R611, R612, R621) -/

/-- The faults of each instruction (R621): no instruction raises FETCH_RANGE. -/
def CanFault (i : Instr) (code : FaultCode) : Prop :=
  (code = .memRange ∧ ((∃ x y n, i = .drw x y n) ∨ ∃ x, i = .ldB x ∨ i = .storeRegs x ∨ i = .loadRegs x)) ∨
  (code = .stackOverflow ∧ ∃ nnn, i = .call nnn) ∨
  (code = .stackUnderflow ∧ i = .ret)

/-- In state `s` the instruction is a key test of a value with no key, which `a` reports (R612). -/
def KeyUnmapped (s : State) (i : Instr) (a : Anomaly) : Prop :=
  ∃ x, (i = .skp x ∨ i = .sknp x) ∧ 0xF < (getV s x).toNat ∧ a = .keyUnmapped (instrPc s) (getV s x)

/-- What a key test can raise. -/
theorem skipOnKey_raises {wanted : Bool} {x : RegIx} (hi : i = .skp x ∨ i = .sknp x) :
    ((skipOnKey wanted (getV s x) s).fault = s.fault ∧ (skipOnKey wanted (getV s x) s).out = s.out) ∨
    ∃ a, KeyUnmapped s i a ∧ skipOnKey wanted (getV s x) s = raiseAnomaly a s := by
  rcases skipOnKey_cases wanted (getV s x) s with ⟨hx, e⟩ | ⟨-, e⟩
  · exact .inr ⟨_, ⟨x, hi, hx, rfl⟩, e⟩
  · rw [e]; exact .inl ⟨rfl, rfl⟩

/-- An instruction raises nothing, or one of its faults, or KEY_UNMAPPED (R627). -/
theorem exec_raises (h : exec i s = .next t) :
    (t.fault = s.fault ∧ t.out = s.out) ∨
    (∃ code addr, CanFault i code ∧ t = instrFault code i addr s) ∨
    ∃ a, KeyUnmapped s i a ∧ t = raiseAnomaly a s := by
  cases i
  case ret =>
    rcases execRet_cases h with ⟨-, rfl⟩ | ⟨-, rfl⟩
    · exact .inr (.inl ⟨_, _, .inr (.inr ⟨rfl, rfl⟩), rfl⟩)
    · exact .inl ⟨rfl, rfl⟩
  case call nnn =>
    rcases execCall_cases h with ⟨_, rfl⟩ | ⟨-, rfl⟩
    · exact .inl ⟨rfl, rfl⟩
    · exact .inr (.inl ⟨_, _, .inr (.inl ⟨rfl, nnn, rfl⟩), rfl⟩)
  case drw x y n =>
    rcases execDrw_cases h with ⟨-, rfl⟩ | ⟨-, -, rfl⟩
    · exact .inl ⟨rfl, rfl⟩
    · exact .inr (.inl ⟨_, _, .inl ⟨rfl, .inl ⟨x, y, n, rfl⟩⟩, rfl⟩)
  case ldB x =>
    rcases execLdB_cases h with ⟨-, rfl⟩ | ⟨-, rfl⟩
    · exact .inl ⟨rfl, rfl⟩
    · exact .inr (.inl ⟨_, _, .inl ⟨rfl, .inr ⟨x, .inl rfl⟩⟩, rfl⟩)
  case storeRegs x =>
    rcases execStoreRegs_cases h with ⟨-, rfl⟩ | ⟨-, rfl⟩
    · exact .inl ⟨rfl, rfl⟩
    · exact .inr (.inl ⟨_, _, .inl ⟨rfl, .inr ⟨x, .inr (.inl rfl)⟩⟩, rfl⟩)
  case loadRegs x =>
    rcases execLoadRegs_cases h with ⟨-, rfl⟩ | ⟨-, rfl⟩
    · rw [foldl_loadReg_frame]; exact .inl ⟨rfl, rfl⟩
    · exact .inr (.inl ⟨_, _, .inl ⟨rfl, .inr ⟨x, .inr (.inr rfl)⟩⟩, rfl⟩)
  case skp x => cases h; exact (skipOnKey_raises (.inl rfl)).imp_right .inr
  case sknp x => cases h; exact (skipOnKey_raises (.inr rfl)).imp_right .inr
  -- each of the other arms updates fields that are neither FAULT nor the outputs
  all_goals cases h; exact .inl ⟨rfl, rfl⟩

theorem exec_fault_cause (hlive : s.fault = none) (h : exec i s = .next t) {f : FaultRecord}
    (hf : t.fault = some f) : CanFault i f.code := by
  rcases exec_raises h with ⟨hsame, -⟩ | ⟨code, addr, hcode, rfl⟩ | ⟨a, -, rfl⟩
  · rw [hsame, hlive] at hf; cases hf
  · cases hf; exact hcode
  · rw [raiseAnomaly_fault, hlive] at hf; cases hf

theorem exec_anomaly_cause (hquiet : s.out.anomaly = none) (h : exec i s = .next t) {a : Anomaly}
    (ha : t.out.anomaly = some a) : t.fault = s.fault ∧ KeyUnmapped s i a := by
  rcases exec_raises h with ⟨-, hsame⟩ | ⟨code, addr, -, rfl⟩ | ⟨b, hb, rfl⟩
  · rw [hsame, hquiet] at ha; cases ha
  · rw [instrFault_out, hquiet] at ha; cases ha
  · cases ha; exact ⟨rfl, hb⟩

/-! ## Words of no row (R320, R611) -/

theorem execute_of_no_row (s : State) (h : ∀ r ∈ opcodeRows, r.matches w = false) :
    execute w s = .next (raiseAnomaly (.unrecognized (instrPc s) w) s) := by
  rw [execute, decodeWord_unrecognized_iff.2 h]

/-- A word of a row raises no UNRECOGNIZED. -/
theorem execute_unrecognized_no_row {pc word : Word} (hquiet : s.out.anomaly = none)
    (h : execute w s = .next t) (ha : t.out.anomaly = some (.unrecognized pc word)) :
    ∀ r ∈ opcodeRows, r.matches w = false := by
  rcases decodeWord_total w with ⟨i, hi⟩ | herr
  · rw [execute_ok hi] at h
    obtain ⟨-, x, -, -, hkey⟩ := exec_anomaly_cause hquiet h ha
    cases hkey
  · exact decodeWord_unrecognized_iff.1 herr

end Sys2Proof.Laws

open Sys2Proof Sys2Proof.Machine Sys2Proof.Laws

/-- Settles O7: a word of no row is refused by the decoder. -/
theorem unrecognizedWordRaisesAnomaly : Obligations.UnrecognizedWordRaisesAnomaly := by
  unfold Obligations.UnrecognizedWordRaisesAnomaly
  exact fun w s h => execute_of_no_row s fun r hr => beq_eq_false_iff_ne.2 (h r hr)

/-- Settles O49: every fault and anomaly of an instruction has its cause in `exec_raises`, and UNRECOGNIZED is
none of them. -/
theorem faultsComeOnlyFromTheirInstructions : Obligations.FaultsComeOnlyFromTheirInstructions := by
  unfold Obligations.FaultsComeOnlyFromTheirInstructions
  constructor
  · intro i s t hlive hquiet h
    refine ⟨fun f => exec_fault_cause hlive h, fun a ha => ?_⟩
    obtain ⟨hsame, hkey⟩ := exec_anomaly_cause hquiet h ha
    exact ⟨hsame.trans hlive, hkey⟩
  · intro w s t pc word hquiet h ha
    have hrows := execute_unrecognized_no_row hquiet h ha
    rw [execute_of_no_row s hrows] at h
    cases h
    cases ha
    exact ⟨rfl, rfl, rfl, hrows⟩

/-- Settles O48, by whether the machine is in Halted. -/
theorem timerStepCountsDownAndRenders : Obligations.TimerStepCountsDownAndRenders := by
  unfold Obligations.TimerStepCountsDownAndRenders
  refine fun s => ⟨fun hlive => ?_, timerStep_halted⟩
  rw [timerStep_of_not_halted hlive]
  exact ⟨_, rfl, countDown_toNat s.dt, countDown_toNat s.st, rfl, rfl, rfl⟩
end

section
/-! Reset (R700 to R703): when `boot` accepts an image and with which state, what memory reads as after it, the
default boot, and the invariant of every reset state. -/

namespace Sys2Proof.Laws
open Sys2Proof Sys2Proof.Machine

variable {font : Vector Byte 80} {image : List Byte} {params : Params} {now a j : Nat} {ins : List HostInput}
  {t : State}

/-! ## When reset answers a state (R702) -/

theorem boot_next_iff :
    boot font image params now ins = .next t ↔ image.length ≤ 3584 ∧ t = booted font image params now ins := by
  rcases le_or_gt image.length 3584 with h | h
  · simp [boot_ok h, h, eq_comm]
  · simp [boot_refused h, h]

/-! ## Memory by its ranges (R701, R703) -/

theorem read_bootMemory_font (h : image.length ≤ 3584) (ha : a < 80) :
    Memory.read (bootMemory font image) a = font[a] := by
  rw [read_bootMemory h, if_neg (by omega), if_pos ha]
  simp [List.getD_eq_getElem?_getD, ha]

theorem read_bootMemory_image (h : image.length ≤ 3584) (hj : j < image.length) :
    Memory.read (bootMemory font image) (0x200 + j) = image[j] := by
  rw [read_bootMemory h, if_pos (by omega), Nat.add_sub_cancel_left, List.getD_eq_getElem _ _ hj]

theorem read_bootMemory_outside (h : image.length ≤ 3584) (hfont : 80 ≤ a)
    (himage : a < 0x200 ∨ 0x200 + image.length ≤ a) : Memory.read (bootMemory font image) a = 0 := by
  rw [read_bootMemory h, if_neg (by omega), if_neg (by omega)]
  rfl

/-! ## The default boot -/

/-- FONT at its default (R211). -/
def defaultFontVector : Vector Byte 80 := ⟨defaultFont.toArray, by decide⟩

theorem defaultFontVector_toList : defaultFontVector.toList = defaultFont := rfl

/-- Memory lists only what differs from the default reset contents, so the default boot lists nothing. -/
theorem bootMemory_defaultFont : bootMemory defaultFontVector [] = [] := by
  refine memory_ext wf_bootMemory wf_nil fun a => ?_
  rw [read_bootMemory (Nat.zero_le _), if_neg (by simp), defaultFontVector_toList]
  by_cases ha : a < 80
  · exact if_pos ha
  · exact (if_neg ha).trans (unlisted_above_font (not_lt.1 ha)).symm

theorem booted_defaultFont : booted defaultFontVector [] {} 0 [] = State.reset := by
  rw [booted, bootMemory_defaultFont]
  rfl

/-! ## The invariant -/

theorem inv_reset : State.reset.Inv where
  memory := wf_nil
  pc := by decide
  stack := by decide
  fault := by decide

theorem inv_booted : (booted font image params now ins).Inv :=
  { inv_reset with memory := wf_bootMemory }

end Sys2Proof.Laws

open Sys2Proof Sys2Proof.Machine Sys2Proof.Laws

/-- Settles O52: memory by its ranges; every other field is the one of `State.reset` or an argument. -/
theorem resetSetsEveryPieceOfState : Obligations.ResetSetsEveryPieceOfState := by
  unfold Obligations.ResetSetsEveryPieceOfState
  intro font image p now ins h
  have hv (j : RegIx) : getV (booted font image p now ins) j = 0 := Vector.getElem_replicate j.isLt
  have hstack (j : Fin 16) : (booted font image p now ins).stack[j] = 0 := Vector.getElem_replicate j.isLt
  exact ⟨booted font image p now ins, boot_ok h,
    fun _ ha => read_bootMemory_font h ha,
    fun _ hfont hlow => read_bootMemory_outside h hfont (.inl hlow),
    fun _ hj => read_bootMemory_image h hj,
    fun _ hend _ => read_bootMemory_outside h (by omega) (.inr hend),
    hv, rfl, rfl, hstack, rfl, rfl, rfl, pixel_zero, rfl, rfl, rfl, rfl⟩

/-- Settles O53: reset answers a state exactly for an image of at most 3584 bytes. -/
theorem oversizedImageIsRefused : Obligations.OversizedImageIsRefused := by
  unfold Obligations.OversizedImageIsRefused
  intro font image p now ins
  refine ⟨fun hlong t hnext => ?_, fun h => ⟨_, boot_ok h⟩⟩
  obtain ⟨hshort, -⟩ := boot_next_iff.1 hnext
  exact absurd hshort (not_le.2 hlong)

/-- Settles O54: the default boot lists no byte of memory. -/
theorem resetStateIsTheDefaultBoot : Obligations.ResetStateIsTheDefaultBoot := by
  unfold Obligations.ResetStateIsTheDefaultBoot
  exact ⟨defaultFontVector, defaultFontVector_toList,
    boot_next_iff.2 ⟨Nat.zero_le _, booted_defaultFont.symm⟩⟩

/-- Settles O55: an accepted reset differs from `State.reset` in memory alone among the fields of the
invariant, and a block write keeps memory canonical. -/
theorem invariantHoldsAtReset : Obligations.InvariantHoldsAtReset := by
  unfold Obligations.InvariantHoldsAtReset
  refine ⟨inv_reset, fun font image p now ins t hnext => ?_⟩
  obtain ⟨-, rfl⟩ := boot_next_iff.1 hnext
  exact inv_booted
end
